-- ==== Sys2Proof/Word.lean ====
section
/-! DEFINITION. The word of the host port and of every 32-bit register (20_memory.md R62, R65; 00_scope.md R11). -/

namespace Sys2Proof

/-- One 32-bit data word of the host port; bit 0 is the least significant bit (R11, R65). -/
abbrev Word := BitVec 32

end Sys2Proof
end

