-- ==== Sys2Proof/Config.lean ====
section
/-! DEFINITION. What an implementation of the block fixes: the parameters W and BASE (00_scope.md R7, R8) and the
constants of the register window (10_state.md R20, R34; 20_memory.md R60, R61). LAT (R10) needs no constant: when a
completion happens is data of the input queue (Machine/State.lean). -/

namespace Sys2Proof

/-- The OPEN parameters of one block. They are an argument of the model: `State` carries them and no step changes them,
so that a statement over every state is a statement over every W and every BASE. Assumption 1. -/
structure Params where
  /-- `W`, the width in bits of OPA, OPB and RESULT (R7). -/
  width : Nat
  /-- `BASE`, the host address of offset 0x000 of the window (R8). -/
  base : Nat
deriving DecidableEq, Repr

/-- `N = W / 32`, the number of 32-bit words of a wide register (R7). -/
def Params.words (p : Params) : Nat := p.width / 32

/-- The reference value `W = 128` (R7), at BASE 0 (R8 leaves BASE open: DESIGN CHOICE, assumption 1). -/
def Config.referenceParams : Params := { width := 128, base := 0 }

/-- The constant that ID reads as (R34). -/
def Config.idValue : Word := 0x43524331#32

/-- The size in bytes of the register window (R60). -/
def Config.windowBytes : Nat := 0x400

end Sys2Proof
end

