-- ==== Sys2Proof/Syntax.lean ====
section
/-! DEFINITION. The nine commands, one constructor per row of spec/opcode_table.json (30_encoding.md R82). -/

namespace Sys2Proof

/-- A command. It has no written operand: every operand is implicit, in OPA, OPB or IDX (R80, R86). -/
inductive Instr where
  /-- GET_BIT: read one bit of OPA (R101). -/
  | getBit
  /-- SET_BIT: set one bit of OPA (R102). -/
  | setBit
  /-- CLEAR_BIT: clear one bit of OPA (R103). -/
  | clearBit
  /-- SHIFT_IN: shift OPA left by one and bring in a bit of OPB (R104). -/
  | shiftIn
  /-- XOR_IF_MSB_SET: conditional GF(2) subtraction of OPB from OPA (R105). -/
  | xorIfMsbSet
  /-- REMAINDER: the remainder of OPA divided by OPB over GF(2) (R140). -/
  | remainder
  /-- PAD: append `len(OPB) - 1` zero bits to OPA (R170). -/
  | pad
  /-- ENCODE: append the check bits to OPA (R171). -/
  | encode
  /-- DECODE: is OPA divisible by OPB? (R174). -/
  | decode
deriving DecidableEq, Repr

end Sys2Proof
end

