-- ==== Sys2Proof/WellFormed.lean ====
section
/-! DEFINITION. The checks on what stands outside the machine: the parameters and the command word. An `Instr` has no
field, so every term of it is well-formed and there is nothing to check (30_encoding.md R80). -/

namespace Sys2Proof

/-- W is a multiple of 32 with 64 ≤ W ≤ 2048 (R7), and BASE a multiple of 0x400 (R8). -/
def Params.wf (p : Params) : Bool :=
  p.width % 32 == 0 && decide (64 ≤ p.width) && decide (p.width ≤ 2048) && p.base % Config.windowBytes == 0

/-- The opcode field OP, bits `[3:0]` of a command word (R80). -/
def opField (d : Word) : BitVec 4 := d.extractLsb' 0 4

/-- The must-be-zero field MBZ, bits `[31:4]` of a command word (R80). -/
def mbzField (d : Word) : BitVec 28 := d.extractLsb' 4 28

/-- A command word is valid exactly when MBZ is 0 and OP is one of 0x1 to 0x9 (R81). -/
def validWord (d : Word) : Bool :=
  mbzField d == 0#28 && decide (1 ≤ (opField d).toNat) && decide ((opField d).toNat ≤ 9)

/-- Every instruction is well-formed: there is no operand to check (R80). -/
def Instr.wf : Instr → Bool
  | .getBit | .setBit | .clearBit | .shiftIn | .xorIfMsbSet | .remainder | .pad | .encode | .decode => true

end Sys2Proof
end

