-- ==== Sys2Proof/Decode.lean ====
section
/-! DEFINITION. The decoder of command words, total on every 32-bit word (30_encoding.md R81, R83), and the encoder
(R82). A command word is the data of one bus write, so there are no bytes to assemble (R66, R87). -/

namespace Sys2Proof

/-- Why a command word names no command: it is reserved (R83). -/
inductive DecodeError where
  /-- MBZ, bits `[31:4]`, is not 0 (R80, R83). -/
  | mbzNotZero
  /-- MBZ is 0 and OP is 0x0 or one of 0xA to 0xF (R83). -/
  | reservedOpcode
deriving DecidableEq, Repr

/-- A row of the opcode map of R82, matched under a mask (R81). -/
structure OpcodeRow where
  mask    : Word
  pattern : Word
  instr   : Instr
deriving DecidableEq, Repr

/-- The opcode map of R82; each row is matched on the whole word, mask 0xFFFFFFFF (R81). -/
def opcodeTable : List OpcodeRow :=
  [ ⟨0xFFFFFFFF#32, 0x00000001#32, .getBit⟩,
    ⟨0xFFFFFFFF#32, 0x00000002#32, .setBit⟩,
    ⟨0xFFFFFFFF#32, 0x00000003#32, .clearBit⟩,
    ⟨0xFFFFFFFF#32, 0x00000004#32, .shiftIn⟩,
    ⟨0xFFFFFFFF#32, 0x00000005#32, .xorIfMsbSet⟩,
    ⟨0xFFFFFFFF#32, 0x00000006#32, .remainder⟩,
    ⟨0xFFFFFFFF#32, 0x00000007#32, .pad⟩,
    ⟨0xFFFFFFFF#32, 0x00000008#32, .encode⟩,
    ⟨0xFFFFFFFF#32, 0x00000009#32, .decode⟩ ]

/-- Does the word match the row under its mask (R81)? -/
def OpcodeRow.fits (d : Word) (r : OpcodeRow) : Bool := d &&& r.mask == r.pattern

/-- The command a word names, or why it is reserved (R81, R83). -/
def decode (d : Word) : Except DecodeError Instr :=
  match opcodeTable.find? (OpcodeRow.fits d) with
  | some r => .ok r.instr
  | none => if mbzField d == 0#28 then .error .reservedOpcode else .error .mbzNotZero

/-- The opcode OP of a command (R82). -/
def Instr.opcode : Instr → BitVec 4
  | .getBit => 0x1#4
  | .setBit => 0x2#4
  | .clearBit => 0x3#4
  | .shiftIn => 0x4#4
  | .xorIfMsbSet => 0x5#4
  | .remainder => 0x6#4
  | .pad => 0x7#4
  | .encode => 0x8#4
  | .decode => 0x9#4

/-- The command word of a command: MBZ = 0 above OP (R80, R82). -/
def encode (i : Instr) : Word := 0#28 ++ i.opcode

/-- The command word whose low `nbits` bits are those of `w` and whose other bits are 0. -/
def tableWord (nbits w : Nat) : Word := BitVec.ofNat 32 (w % 2 ^ nbits)

/-- What the decoder reads from a row of spec/opcode_table.json, its bits numbered as the table numbers them. -/
def decodeTableWord (nbits w : Nat) : Option Instr :=
  match decode (tableWord nbits w) with
  | .ok i => some i
  | .error _ => none

end Sys2Proof
end

