-- ==== Sys2Proof/Machine/State.lean ====
section
/-! DEFINITION. All the state the spec gives the block (10_state.md R20, R21, R41), the inputs that reach it, and the
state after reset (R42). -/

namespace Sys2Proof.Machine

/-- STATUS.ERR, the code of the last completed command (R33, R201). Codes 4 to 15 are never produced. -/
inductive ErrCode where
  /-- Code 0, NONE. -/
  | none
  /-- Code 1, INVALID_ARGUMENT (R202). -/
  | invalidArgument
  /-- Code 2, WIDTH_OVERFLOW (R203). -/
  | widthOverflow
  /-- Code 3, ILLEGAL_COMMAND (R204). -/
  | illegalCommand
deriving DecidableEq, Repr

/-- The engine's phase (R44). STATUS.BUSY is a view of it: 1 exactly in `busy`. -/
inductive Phase where
  | idle
  | busy
deriving DecidableEq, Repr

/-- The divider's datapath, internal and never visible (41_remainder.md R152; 10_state.md R41). -/
structure Datapath where
  /-- The working register. -/
  reg   : Nat
  /-- The ordinal of the next dividend bit to bring in; -1 when none is left. -/
  shift : Int
  /-- `len` of the divisor. -/
  g     : Nat
  /-- `len` of the dividend. -/
  s     : Nat
deriving DecidableEq, Repr

/-- What a host access does (20_memory.md R62). -/
inductive AccessOp where
  | read
  | write (data : Word)
deriving DecidableEq, Repr

/-- How the platform maps the window for an access. The host's duty H7 is device memory: uncached, unmerged, unreordered,
unspeculated (20_memory.md R75; 70_reset_and_hazards.md R245). That the mapping is data of each access is the model's
choice, assumption 9. -/
structure Mapping where
  cached     : Bool
  merged     : Bool
  reordered  : Bool
  speculated : Bool
deriving DecidableEq, Repr

/-- One access of a bus master (R60, R62): its address in the host's address space, its width in bits, what it does, and how
the window is mapped for it. The block does not tell masters apart (R215, R218). An access that is not 32 bits wide is never served, so its data
is not looked at. -/
structure Access where
  addr : Nat
  bits : Nat
  op   : AccessOp
  mapping : Mapping
deriving DecidableEq, Repr

/-- What can happen to the block next (R71, R230, R242). -/
inductive Event where
  /-- A bus master's access reaches the port. -/
  | access (a : Access)
  /-- The engine advances its datapath by one internal step, which no access can see (R41, R49). -/
  | pass
  /-- The engine completes the command in flight (R46). -/
  | complete
  /-- A rising edge of `clk` samples the input `rst_n` at this level (R230, R232). -/
  | rstN (level : Bool)
deriving DecidableEq, Repr

/-- The port's answer to an access it accepts. An access it does not accept is a bus error, a `Fault` (R206). -/
inductive Response where
  /-- The data of a read. -/
  | data (d : Word)
  /-- A write was accepted. -/
  | ack
deriving DecidableEq, Repr

/-- Why a step stops with a fault. Each is a bus error, which changes no state of the block (60_exceptions.md R206: "A model
treats a bus error as a fault of the host access"). All are raised by `serve` and are safe: the model stops where the
block would go on unchanged. -/
inductive Fault where
  /-- The access is not 32 bits wide (R62). Safe. -/
  | busErrorWidth
  /-- The access is 32 bits wide and its offset is no multiple of 4 (R62). Safe. -/
  | busErrorMisaligned
  /-- The access is 32 bits wide and aligned, and its offset is unmapped (R63). Safe. -/
  | busErrorUnmapped
deriving DecidableEq, Repr

/-- Why a step is refused. All are safe: the model stops where the block, or something beside it, would go on. -/
inductive Refusal where
  /-- A command whose meaning is not written; raised by an arm of `exec` only, and by none of them now. Safe. -/
  | notModelled (mnemonic : String)
  /-- An access while `rst_n` is low, which the host must not make (R232; R245 duty H6); raised by `serve`. Safe. -/
  | accessDuringReset
  /-- An access through a mapping that is not device memory (R245 duty H7, which 93_implementation_defined.md section 3 has a
  model refuse); raised by `serve`. Safe. -/
  | notDeviceMapped
  /-- An access outside the block's window, whose target the spec does not describe (R61); raised by `serve`. Safe. -/
  | outsideWindow
deriving DecidableEq, Repr

/-- The block and the inputs still to reach it. A wide register is its N words, word 0 (bits `[31:0]`) first (R20, R64). -/
structure State where
  /-- W and BASE: constants of the block (R7, R8). PARAM reads W (R35). -/
  params   : Params
  /-- CTRL.IE (R36). CTRL.SRST is not stored (R37). -/
  ie       : Bool
  /-- The engine's phase, visible as STATUS.BUSY (R30, R44). -/
  phase    : Phase
  /-- STATUS.DONE (R31). -/
  done     : Bool
  /-- STATUS.OVR (R32). -/
  ovr      : Bool
  /-- STATUS.ERR (R33). -/
  err      : ErrCode
  /-- CMD, the last command word accepted (R38). -/
  cmd      : Word
  /-- IDX (R24). -/
  idx      : Word
  /-- OPA, N words (R22). -/
  opa      : List Word
  /-- OPB, N words (R23). -/
  opb      : List Word
  /-- RESULT, N words (R25). -/
  result   : List Word
  /-- The divider's datapath, once the engine has loaded it for the command in flight (R41, R152). -/
  datapath : Option Datapath
  /-- The level of the input `rst_n` at the last rising edge of `clk` (R232). -/
  rstN     : Bool
  /-- The model's own: the inputs still to come, the next one first. Assumption 2. -/
  inbox    : List Event
  /-- The model's own: the port's answer to the last access it accepted, none before the first. Assumption 4. -/
  response : Option Response
deriving DecidableEq, Repr

/-- The block with parameters `p` right after reset, with no input to come (R42; nothing is left unspecified). -/
def State.resetWith (p : Params) : State where
  params := p
  ie := false
  phase := .idle
  done := false
  ovr := false
  err := .none
  cmd := 0#32
  idx := 0#32
  opa := List.replicate p.words 0#32
  opb := List.replicate p.words 0#32
  result := List.replicate p.words 0#32
  datapath := none
  rstN := true
  inbox := []
  response := none

/-- The block with the reference parameters right after reset (R42, R7). -/
def State.reset : State := State.resetWith Config.referenceParams

end Sys2Proof.Machine
end

