-- ==== Sys2Proof/Machine/Operands.lean ====
section
/-! DEFINITION. The operand forms: a wide register as a number (20_memory.md R64), its length (00_scope.md R12), one bit of
a number (40_bitops.md R100), and the signed bit ordinal (30_encoding.md R85). -/

namespace Sys2Proof.Machine

/-- W of this block (R7). -/
def State.width (s : State) : Nat := s.params.width

/-- N of this block (R7). -/
def State.words (s : State) : Nat := s.params.words

/-- The number that the words of a wide register hold: the sum of `word k * 2^(32k)` (R64). -/
def valueOf : List Word → Nat
  | [] => 0
  | w :: ws => w.toNat + 2 ^ 32 * valueOf ws

/-- The `n` words of a number, word 0 first (R64). It is `zext_W` of R14 where the number is below `2^(32 n)`. -/
def wordsOf : Nat → Nat → List Word
  | 0, _ => []
  | n + 1, v => BitVec.ofNat 32 v :: wordsOf n (v >>> 32)

/-- `len(v)`: the position of the highest set bit plus one, and 0 for 0 (R12). -/
def len (v : Nat) : Nat := if v = 0 then 0 else v.log2 + 1

/-- `gb(v, b)`: bit b of v, as 0 or 1 (R100). -/
def gb (v b : Nat) : Nat := (v >>> b) &&& 1

/-- `sint32(x)`: a 32-bit word read as two's complement (R14). -/
def sint32 (x : Word) : Int := if x.msb then (x.toNat : Int) - 2 ^ 32 else (x.toNat : Int)

/-- The first operand, OPA as an unsigned number (R86). -/
def State.opaValue (s : State) : Nat := valueOf s.opa

/-- The second operand, OPB as an unsigned number (R86). -/
def State.opbValue (s : State) : Nat := valueOf s.opb

/-- RESULT as an unsigned number (R64). -/
def State.resultValue (s : State) : Nat := valueOf s.result

/-- The bit ordinal `b = sint32(IDX)` (R85). -/
def State.ordinal (s : State) : Int := sint32 s.idx

end Sys2Proof.Machine
end

