-- ==== Sys2Proof/Machine/Flags.lean ====
section
/-! DEFINITION. The fields of STATUS and CTRL as the host reads and writes them (10_state.md R29, R36, R39), the error codes
(60_exceptions.md R201) and the interrupt line (10_state.md R43). -/

namespace Sys2Proof.Machine

/-- An error a command can end with (R201). -/
inductive CmdError where
  | invalidArgument
  | widthOverflow
  | illegalCommand
deriving DecidableEq, Repr

/-- What STATUS.ERR holds after an error (R201). -/
def CmdError.errCode : CmdError → ErrCode
  | .invalidArgument => .invalidArgument
  | .widthOverflow => .widthOverflow
  | .illegalCommand => .illegalCommand

/-- The code that bits `[7:4]` of STATUS read (R29, R201). -/
def ErrCode.code : ErrCode → BitVec 4
  | .none => 0#4
  | .invalidArgument => 1#4
  | .widthOverflow => 2#4
  | .illegalCommand => 3#4

/-- STATUS.BUSY (R44). -/
def State.busy (s : State) : Bool := s.phase == .busy

/-- STATUS as read: bits `[31:8]` reserved, `[7:4]` ERR, 3 reserved, 2 OVR, 1 DONE, 0 BUSY (R29). -/
def State.statusWord (s : State) : Word :=
  0#24 ++ s.err.code ++ 0#1 ++ BitVec.ofBool s.ovr ++ BitVec.ofBool s.done ++ BitVec.ofBool s.busy

/-- CTRL as read: bits `[31:2]` reserved, 1 SRST reads 0, 0 IE (R36, R37). -/
def State.ctrlWord (s : State) : Word := 0#31 ++ BitVec.ofBool s.ie

/-- PARAM as read: bits `[31:16]` read 0, `[15:0]` read W (R35). -/
def State.paramWord (s : State) : Word := 0#16 ++ BitVec.ofNat 16 s.width

/-- A host write to STATUS: a 1 in bit 1 clears DONE, a 1 in bit 2 clears OVR (R39). -/
def State.ackStatus (s : State) (d : Word) : State :=
  { s with done := s.done && !d.getLsbD 1, ovr := s.ovr && !d.getLsbD 2 }

/-- The output `irq`, level-sensitive and active high (R43). -/
def State.irq (s : State) : Bool := s.ie && s.done

end Sys2Proof.Machine
end

