-- ==== Sys2Proof/Machine/Ops.lean ====
section
/-! DEFINITION. The operations every command shares: issue (10_state.md R45), completion with a value or with an error
(R46), reset (70_reset_and_hazards.md R231), and the checks that raise an error (60_exceptions.md R202, R203). The block
has no trap: raising an error IS completing with its code (R200, R212), and there is no return from one (R213). -/

namespace Sys2Proof.Machine

/-- What `Execute` answers: `Ok(v)` or `Err(code)` (00_scope.md R17). -/
inductive Answer where
  | ok (v : Nat)
  | err (c : CmdError)
deriving DecidableEq, Repr

/-- Issue of command word `d` (R45). The divider's datapath starts empty (R41). -/
def State.issue (s : State) (d : Word) : State :=
  { s with cmd := d, done := false, err := .none, phase := .busy, datapath := none }

/-- Completion with `Ok(v)`: RESULT takes v, zero-extended to its N words (R46, R25). -/
def State.completeOk (s : State) (v : Nat) : State :=
  { s with result := wordsOf s.words v, err := .none, phase := .idle, done := true, datapath := none }

/-- Completion with `Err(c)`, the one way an error is reported: STATUS alone changes (R46, R200, R212). -/
def State.completeErr (s : State) (c : CmdError) : State :=
  { s with err := c.errCode, phase := .idle, done := true, datapath := none }

/-- Completion with the answer of `Execute` (R46). -/
def State.complete (s : State) : Answer → State
  | .ok v => s.completeOk v
  | .err c => s.completeErr c

/-- A host write dropped because BUSY = 1: STATUS.OVR records it (R47). -/
def State.dropWrite (s : State) : State := { s with ovr := true }

/-- The effect of a reset on the block: every register and the engine at its reset value, W and BASE as they are (R231, R42). The
level of `rst_n`, the inputs to come and the port's last answer are not registers of the block. -/
def State.resetRegisters (s : State) : State :=
  { State.resetWith s.params with rstN := s.rstN, inbox := s.inbox, response := s.response }

/-- `rst_n` is sampled at a level: low resets the block and holds it there, high lets it serve accesses (R231, R232). -/
def State.sampleRstN (s : State) (level : Bool) : State :=
  if level then { s with rstN := true } else { s.resetRegisters with rstN := false }

/-- The ordinal check, the first check of every BitOps command (40_bitops.md R100). -/
def checkOrdinal (b : Int) (k : Nat → Answer) : Answer :=
  if b < 0 then .err .invalidArgument else k b.toNat

/-- The generator check, the first check of every divider command (41_remainder.md R141). -/
def checkGenerator (gen : Nat) (k : Answer) : Answer :=
  if len gen < 2 then .err .invalidArgument else k

/-- A width check: the exact result needs more than W bits (60_exceptions.md R203). -/
def checkWidth (overflows : Bool) (k : Answer) : Answer :=
  if overflows then .err .widthOverflow else k

end Sys2Proof.Machine
end

