-- ==== Sys2Proof/Machine/BitOps.lean ====
section
/-! DEFINITION. The source's five bit primitives, on unbounded numbers (00_scope.md R16), and the BitOps commands built on them
(40_bitops.md). -/

namespace Sys2Proof.Machine

/-- `set_bit(value, bit)`: `value | (1 << bit)` (R102). -/
def setBitValue (v b : Nat) : Nat := v ||| (1 <<< b)

/-- `clear_bit(value, bit)`: value with bit b cleared (R103, R14). -/
def clearBitValue (v b : Nat) : Nat := if gb v b = 1 then v ^^^ (1 <<< b) else v

/-- `shift_in(value, bit, source)`: `(value << 1) | get_bit(source, bit)` (R104). -/
def shiftInValue (v b src : Nat) : Nat := (v <<< 1) ||| gb src b

/-- `xor_if_msb_set(value, msb_position, operand)`: XOR with the whole operand where that bit of value is 1 (R105). -/
def xorIfMsbSetValue (v b operand : Nat) : Nat := if gb v b = 1 then v ^^^ operand else v

/-- GET_BIT of `value` OPA at ordinal `b` (R101). -/
def answerGetBit (opa : Nat) (b : Int) : Answer :=
  checkOrdinal b fun n => .ok (gb opa n)

/-- SET_BIT: ordinal check, then the width check `b ≥ W` (R102). -/
def answerSetBit (width opa : Nat) (b : Int) : Answer :=
  checkOrdinal b fun n => checkWidth (decide (width ≤ n)) (.ok (setBitValue opa n))

/-- CLEAR_BIT (R103). -/
def answerClearBit (opa : Nat) (b : Int) : Answer :=
  checkOrdinal b fun n => .ok (clearBitValue opa n)

/-- SHIFT_IN: ordinal check, then the width check `OPA[W-1] = 1` (R104). -/
def answerShiftIn (width opa opb : Nat) (b : Int) : Answer :=
  checkOrdinal b fun n => checkWidth (gb opa (width - 1) == 1) (.ok (shiftInValue opa n opb))

/-- XOR_IF_MSB_SET (R105). -/
def answerXorIfMsbSet (opa opb : Nat) (b : Int) : Answer :=
  checkOrdinal b fun n => .ok (xorIfMsbSetValue opa n opb)

/-- GET_BIT completes (R101, R46). -/
def execGetBit (s : State) : Host.Outcome State Fault Refusal :=
  .next (s.complete (answerGetBit s.opaValue s.ordinal))

/-- SET_BIT completes (R102, R46). -/
def execSetBit (s : State) : Host.Outcome State Fault Refusal :=
  .next (s.complete (answerSetBit s.width s.opaValue s.ordinal))

/-- CLEAR_BIT completes (R103, R46). -/
def execClearBit (s : State) : Host.Outcome State Fault Refusal :=
  .next (s.complete (answerClearBit s.opaValue s.ordinal))

/-- SHIFT_IN completes (R104, R46). -/
def execShiftIn (s : State) : Host.Outcome State Fault Refusal :=
  .next (s.complete (answerShiftIn s.width s.opaValue s.opbValue s.ordinal))

/-- XOR_IF_MSB_SET completes (R105, R46). -/
def execXorIfMsbSet (s : State) : Host.Outcome State Fault Refusal :=
  .next (s.complete (answerXorIfMsbSet s.opaValue s.opbValue s.ordinal))

end Sys2Proof.Machine
end

