-- ==== Sys2Proof/Machine/Remainder.lean ====
section
/-! DEFINITION. The GF(2) division engine (41_remainder.md): its datapath, pass by pass, the function `Rem` that it computes,
and the command REMAINDER. -/

namespace Sys2Proof.Machine

/-- Seed (R142). `shift = s - g - 1`; where it is negative no dividend bit is left, and the counter, whose range is
`-1 .. W - 3` (R152), holds -1. Assumption 6. -/
def Datapath.seed (a gen : Nat) : Datapath :=
  let shift : Int := (len a : Int) - len gen - 1
  { reg := if 0 ≤ shift then a >>> (shift + 1).toNat else a
    shift := max shift (-1)
    g := len gen
    s := len a }

/-- One pass of the loop: steps (1) to (4) of R143. -/
def Datapath.pass (a gen : Nat) (d : Datapath) : Datapath :=
  { d with
    reg := clearBitValue (shiftInValue (xorIfMsbSetValue d.reg (d.g - 1) gen) d.shift.toNat a) d.g
    shift := d.shift - 1 }

/-- The loop while `shift ≥ 0` (R143), for at most the given number of passes. -/
def Datapath.loop (a gen : Nat) : Nat → Datapath → Datapath
  | 0, d => d
  | n + 1, d => if 0 ≤ d.shift then Datapath.loop a gen n (d.pass a gen) else d

/-- The passes still to make: `shift + 1`, the dividend bits left (R142, R148). -/
def Datapath.passesLeft (d : Datapath) : Nat := (d.shift + 1).toNat

/-- The passes still to make, then the final step (R144). -/
def Datapath.finish (a gen : Nat) (d : Datapath) : Nat :=
  xorIfMsbSetValue (Datapath.loop a gen d.passesLeft d).reg (d.g - 1) gen

/-- `Rem(a, gen)` once its generator check has passed: seed, loop, final step (R140). -/
def rem (a gen : Nat) : Nat := (Datapath.seed a gen).finish a gen

/-- REMAINDER (R140, R141). -/
def answerRemainder (opa opb : Nat) : Answer :=
  checkGenerator opb (.ok (rem opa opb))

/-- REMAINDER completes (R140, R46). -/
def execRemainder (s : State) : Host.Outcome State Fault Refusal :=
  .next (s.complete (answerRemainder s.opaValue s.opbValue))

end Sys2Proof.Machine
end

