-- ==== Sys2Proof/Machine/Codec.lean ====
section
/-! DEFINITION. The codec commands PAD, ENCODE and DECODE (42_codec.md). -/

namespace Sys2Proof.Machine

/-- `pad(sequence, generator)`: `sequence << (len(generator) - 1)` (R170). -/
def padValue (a gen : Nat) : Nat := a <<< (len gen - 1)

/-- The padded value does not fit: `s > 0` and `s + g - 1 > W` (R170, R180). -/
def padOverflows (width a gen : Nat) : Bool :=
  decide (0 < len a) && decide (width < len a + len gen - 1)

/-- Both checks of PAD and ENCODE pass (R170, R171). -/
def padAllowed (width a gen : Nat) : Bool := decide (2 ≤ len gen) && !padOverflows width a gen

/-- `encode(sequence, generator)`: the padded value plus its remainder (R171). -/
def encodeValue (a gen : Nat) : Nat := padValue a gen + rem (padValue a gen) gen

/-- `decode(candidate, generator)`: 1 where the remainder is 0, else 0 (R174). -/
def decodeValue (a gen : Nat) : Nat := if rem a gen = 0 then 1 else 0

/-- PAD: generator check, then width check (R170, R208). -/
def answerPad (width opa opb : Nat) : Answer :=
  checkGenerator opb (checkWidth (padOverflows width opa opb) (.ok (padValue opa opb)))

/-- ENCODE: the checks of PAD, under the same conditions (R171). -/
def answerEncode (width opa opb : Nat) : Answer :=
  checkGenerator opb (checkWidth (padOverflows width opa opb) (.ok (encodeValue opa opb)))

/-- DECODE: generator check; a false answer is a normal completion (R174, R175). -/
def answerDecode (opa opb : Nat) : Answer :=
  checkGenerator opb (.ok (decodeValue opa opb))

/-- PAD completes (R170, R46). -/
def execPad (s : State) : Host.Outcome State Fault Refusal :=
  .next (s.complete (answerPad s.width s.opaValue s.opbValue))

/-- ENCODE completes (R171, R46). -/
def execEncode (s : State) : Host.Outcome State Fault Refusal :=
  .next (s.complete (answerEncode s.width s.opaValue s.opbValue))

/-- DECODE completes (R174, R46). -/
def execDecode (s : State) : Host.Outcome State Fault Refusal :=
  .next (s.complete (answerDecode s.opaValue s.opbValue))

end Sys2Proof.Machine
end

