-- ==== Sys2Proof/Machine/Dispatch.lean ====
section
/-! DEFINITION. The engine's dispatch on the command of the word in CMD (30_encoding.md R82; 10_state.md R46). -/

namespace Sys2Proof.Machine

def exec (i : Instr) (s : State) : Host.Outcome State Fault Refusal :=
  match i with
  | .getBit => Sys2Proof.Machine.execGetBit s
  | .setBit => Sys2Proof.Machine.execSetBit s
  | .clearBit => Sys2Proof.Machine.execClearBit s
  | .shiftIn => Sys2Proof.Machine.execShiftIn s
  | .xorIfMsbSet => Sys2Proof.Machine.execXorIfMsbSet s
  | .remainder => Sys2Proof.Machine.execRemainder s
  | .pad => Sys2Proof.Machine.execPad s
  | .encode => Sys2Proof.Machine.execEncode s
  | .decode => Sys2Proof.Machine.execDecode s

end Sys2Proof.Machine
end

