-- ==== Sys2Proof/Machine/Engine.lean ====
section
/-! DEFINITION. The engine agent: `Execute` as one function of the operands (00_scope.md R17), completion of the command in
flight (10_state.md R46), and the datapath's internal steps (41_remainder.md R152). -/

namespace Sys2Proof.Machine

/-- The answer of a command, as a function of W and the operands alone (R17, R82). -/
def answerOf (i : Instr) (width opa opb : Nat) (b : Int) : Answer :=
  match i with
  | .getBit => answerGetBit opa b
  | .setBit => answerSetBit width opa b
  | .clearBit => answerClearBit opa b
  | .shiftIn => answerShiftIn width opa opb b
  | .xorIfMsbSet => answerXorIfMsbSet opa opb b
  | .remainder => answerRemainder opa opb
  | .pad => answerPad width opa opb
  | .encode => answerEncode width opa opb
  | .decode => answerDecode opa opb

/-- `Execute(cmd, OPA, OPB, IDX)`; a reserved word answers `Err(ILLEGAL_COMMAND)` and reads no operand (R17, R83, R204). -/
def execute (d : Word) (width opa opb : Nat) (b : Int) : Answer :=
  match decode d with
  | .ok i => answerOf i width opa opb b
  | .error _ => .err .illegalCommand

/-- The completion event of the command word in CMD (R46). -/
def completeCommand (s : State) : Host.Outcome State Fault Refusal :=
  match decode s.cmd with
  | .ok i => exec i s
  | .error _ => .next (s.complete (.err .illegalCommand))

/-- The engine's turn to complete: nothing is in flight while IDLE (R44). -/
def engineComplete (s : State) : Host.Outcome State Fault Refusal :=
  match s.phase with
  | .idle => .next s
  | .busy => completeCommand s

/-- The dividend and the divisor of the division that a command makes, where its checks let it make one (R140, R171, R174).
For ENCODE the dividend is the padded value, so that the datapath's `s` holds its length, the `len(a)` of R140's `Rem(a, gen)`;
R152 takes the lengths from priority encoders on OPB and OPA and does not say what `s` holds there: the model's choice (DESIGN
CHOICE, assumption 6). -/
def divisionOf (i : Instr) (width opa opb : Nat) : Option (Nat × Nat) :=
  match i with
  | .remainder => if len opb < 2 then none else some (opa, opb)
  | .encode => if padAllowed width opa opb then some (padValue opa opb, opb) else none
  | .decode => if len opb < 2 then none else some (opa, opb)
  | .getBit | .setBit | .clearBit | .shiftIn | .xorIfMsbSet | .pad => none

/-- PAD divides nothing: the datapath holds its operand and the two lengths, with no pass to make (R41, R244). Assumption 6. -/
def Datapath.forPad (a gen : Nat) : Datapath := { reg := a, shift := -1, g := len gen, s := len a }

/-- The division of the command in flight. -/
def State.division (s : State) : Option (Nat × Nat) :=
  match decode s.cmd with
  | .ok i => divisionOf i s.width s.opaValue s.opbValue
  | .error _ => none

/-- What the engine loads the datapath with on its first internal step; none for a command that does not use it (R41), and none
for one that fails a check, PAD among them. R141 says of REMAINDER alone that it ends "before computing anything"; for PAD,
ENCODE and DECODE the spec is silent, and this is the model's choice (DESIGN CHOICE, assumption 6). -/
def State.loadDatapath (s : State) : Option Datapath :=
  match s.division with
  | some (a, gen) => some (Datapath.seed a gen)
  | none =>
    if decode s.cmd = .ok .pad ∧ padAllowed s.width s.opaValue s.opbValue = true then
      some (Datapath.forPad s.opaValue s.opbValue)
    else none

/-- One internal step on a loaded datapath: a pass while dividend bits are left (R143). -/
def State.advanceDatapath (s : State) (d : Datapath) : Datapath :=
  match s.division with
  | some (a, gen) => if 0 ≤ d.shift then d.pass a gen else d
  | none => d

/-- One internal step of the engine (R41, R152): it changes the datapath of a command in flight and nothing else (R49). -/
def State.enginePass (s : State) : State :=
  match s.phase with
  | .idle => s
  | .busy =>
    match s.datapath with
    | none => { s with datapath := s.loadDatapath }
    | some d => { s with datapath := some (s.advanceDatapath d) }

/-- What a command word put in CMD for the engine to run at its very next turn leaves: the state of an issue (R45), with `rst_n`
high and the completion as the next input. -/
def State.fetched (s : State) (d : Word) : State :=
  { s.issue d with rstN := true, inbox := .complete :: s.inbox }

end Sys2Proof.Machine
end

