-- ==== Sys2Proof/Machine/Port.lean ====
section
/-! DEFINITION. The host port: the register window (10_state.md R20; 20_memory.md R61), and what a read and a write of each
register do (20_memory.md R67, R68). -/

namespace Sys2Proof.Machine

/-- A register word of the window; `k` is a word of a wide register (R20). -/
inductive Reg where
  | id
  | param
  | ctrl
  | status
  | cmd
  | idx
  | opa (k : Nat)
  | opb (k : Nat)
  | result (k : Nat)
deriving DecidableEq, Repr

/-- The offset of a register word (R20). -/
def Reg.offset : Reg → Nat
  | .id => 0x000
  | .param => 0x004
  | .ctrl => 0x008
  | .status => 0x00C
  | .cmd => 0x010
  | .idx => 0x014
  | .opa k => 0x100 + 4 * k
  | .opb k => 0x200 + 4 * k
  | .result k => 0x300 + 4 * k

/-- Does a block whose wide registers have `n` words have this register word (R20, R61)? -/
def Reg.present (n : Nat) : Reg → Bool
  | .id | .param | .ctrl | .status | .cmd | .idx => true
  | .opa k | .opb k | .result k => decide (k < n)

/-- A word of a slot, where the offset lies in the slot and the register has that word (R61). -/
def slotWord (n slot off : Nat) (r : Nat → Reg) : Option Reg :=
  if slot ≤ off ∧ off < slot + 4 * n then some (r ((off - slot) / 4)) else none

/-- The register at a 4-aligned offset of a block whose wide registers have `n` words; `none` is unmapped (R20, R61, R63). -/
def regAt (n off : Nat) : Option Reg :=
  if off = 0x000 then some .id
  else if off = 0x004 then some .param
  else if off = 0x008 then some .ctrl
  else if off = 0x00C then some .status
  else if off = 0x010 then some .cmd
  else if off = 0x014 then some .idx
  else if off < 0x200 then slotWord n 0x100 off .opa
  else if off < 0x300 then slotWord n 0x200 off .opb
  else slotWord n 0x300 off .result

/-- The word that a read of a register returns (R67). -/
def readReg (s : State) : Reg → Word
  | .id => Config.idValue
  | .param => s.paramWord
  | .ctrl => s.ctrlWord
  | .status => s.statusWord
  | .cmd => s.cmd
  | .idx => s.idx
  | .opa k => s.opa.getD k 0#32
  | .opb k => s.opb.getD k 0#32
  | .result k => s.result.getD k 0#32

/-- A write that is accepted while BUSY = 0 and dropped while BUSY = 1 (R47, R68). -/
def State.writeUnlessBusy (s : State) (accepted : State) : State :=
  match s.phase with
  | .idle => accepted
  | .busy => s.dropWrite

/-- A write to CTRL: bit 1 set resets the block, whatever bit 0 is; else bit 0 is IE (R36, R37, R233). -/
def State.writeCtrl (s : State) (d : Word) : State :=
  if d.getLsbD 1 then s.resetRegisters else { s with ie := d.getLsbD 0 }

/-- What a write of a register does (R68). -/
def writeReg (s : State) (d : Word) : Reg → State
  | .id => s
  | .param => s
  | .ctrl => s.writeCtrl d
  | .status => s.ackStatus d
  | .cmd => s.writeUnlessBusy (s.issue d)
  | .idx => s.writeUnlessBusy { s with idx := d }
  | .opa k => s.writeUnlessBusy { s with opa := s.opa.set k d }
  | .opb k => s.writeUnlessBusy { s with opb := s.opb.set k d }
  | .result _ => s

/-- The port's answer to the access. -/
def State.respond (s : State) (r : Response) : State := { s with response := some r }

/-- An accepted access takes effect (R67, R68). -/
def perform (s : State) (r : Reg) : AccessOp → State
  | .read => s.respond (.data (readReg s r))
  | .write d => (writeReg s d r).respond .ack

/-- Does the platform route this address to the block (R60, R61)? -/
def inWindow (s : State) (addr : Nat) : Bool :=
  decide (s.params.base ≤ addr) && decide (addr < s.params.base + Config.windowBytes)

/-- The offset: the low 10 bits of the address, all that the block decodes (R61). -/
def offsetOf (addr : Nat) : Nat := addr % Config.windowBytes

/-- Device memory: uncached, unmerged, unreordered, unspeculated (R75; R245 duty H7). -/
def Mapping.device : Mapping := { cached := false, merged := false, reordered := false, speculated := false }

/-- One access at the port: routed; refused where it breaks duty H6 or H7 (R232, R245); then a bus error where it is not 32
bits wide, not aligned or not mapped (R62, R63, R206); else performed whole (R71). -/
def serve (a : Access) (s : State) : Host.Outcome State Fault Refusal :=
  if inWindow s a.addr = false then .refused .outsideWindow
  else if s.rstN = false then .refused .accessDuringReset
  else if a.mapping ≠ .device then .refused .notDeviceMapped
  else if a.bits ≠ 32 then .fault .busErrorWidth
  else if offsetOf a.addr % 4 ≠ 0 then .fault .busErrorMisaligned
  else
    match regAt s.words (offsetOf a.addr) with
    | none => .fault .busErrorUnmapped
    | some r => .next (perform s r a.op)

end Sys2Proof.Machine
end

