-- ==== Sys2Proof/Machine/Step.lean ====
section
/-! DEFINITION. One step: the next input takes effect, whole (20_memory.md R71). When no input is to come, a busy engine
completes (70_reset_and_hazards.md R243) and an idle one waits (R234). -/

namespace Sys2Proof.Machine

/-- One step of the block. -/
def step (s : State) : Host.Outcome State Fault Refusal :=
  match s.inbox with
  | [] => engineComplete s
  | .access a :: rest => serve a { s with inbox := rest }
  | .pass :: rest => .next (State.enginePass { s with inbox := rest })
  | .complete :: rest => engineComplete { s with inbox := rest }
  | .rstN level :: rest => .next (State.sampleRstN { s with inbox := rest } level)

/-- `s` with a command word of the table where `step` takes its next command: issued in CMD, with its completion as the next
input. Assumption 3. -/
def State.withFetchWord (s : State) (nbits w : Nat) : State := s.fetched (tableWord nbits w)

end Sys2Proof.Machine
end

