-- ==== Sys2Proof/Machine/Script.lean ====
section
/-! DEFINITION. The host script: its primitives and pseudo-operations as bus accesses (30_encoding.md R88, R89). The host's
own branches and labels belong to the host, not to the block (R89). -/

namespace Sys2Proof.Machine

/-- The mnemonic of a command (R88). -/
def mnemonic : Instr → String
  | .getBit => "GET_BIT"
  | .setBit => "SET_BIT"
  | .clearBit => "CLEAR_BIT"
  | .shiftIn => "SHIFT_IN"
  | .xorIfMsbSet => "XOR_IF_MSB_SET"
  | .remainder => "REMAINDER"
  | .pad => "PAD"
  | .encode => "ENCODE"
  | .decode => "DECODE"

/-- The primitive `W <offset>, <data32>`: `BusWrite(offset, data32)` (R88, R62). -/
def busWrite (p : Params) (off : Nat) (d : Word) : Access := { addr := p.base + off, bits := 32, op := .write d, mapping := .device }

/-- The primitive `R <offset>`: `BusRead(offset)` (R88, R62). -/
def busRead (p : Params) (off : Nat) : Access := { addr := p.base + off, bits := 32, op := .read, mapping := .device }

/-- A wide operand register that `WRW` can write (R89). -/
inductive WideOperand where
  | opa
  | opb
deriving DecidableEq, Repr

/-- The offset of its word 0 (R88). -/
def WideOperand.slot : WideOperand → Nat
  | .opa => 0x100
  | .opb => 0x200

/-- A line of a host script that makes bus accesses (R88, R89). -/
inductive ScriptOp where
  | write (off : Nat) (d : Word)
  | read (off : Nat)
  | wrw (r : WideOperand) (v : Nat)
  | rdwResult
  | setIdx (i : Int)
  | command (i : Instr)
  /-- One turn of the poll loop `WAIT`; the host goes round again while `waitAgain` holds of the data. -/
  | waitPoll
  | ack
  | irqOn
  | irqOff
  | sreset
deriving DecidableEq, Repr

/-- `WRW` is defined only for `v < 2^W`, `SETIDX` only for a signed 32-bit integer (R89). -/
def ScriptOp.wf (p : Params) : ScriptOp → Bool
  | .wrw _ v => decide (v < 2 ^ p.width)
  | .setIdx i => decide (-(2 ^ 31) ≤ i) && decide (i < 2 ^ 31)
  | .write _ _ | .read _ | .rdwResult | .command _ | .waitPoll | .ack | .irqOn | .irqOff | .sreset => true

/-- The writes of words `k, k+1, …` of a wide operand, in that order (R89). -/
def wideWrites (p : Params) (slot : Nat) : Nat → List Word → List Access
  | _, [] => []
  | k, w :: ws => busWrite p (slot + 4 * k) w :: wideWrites p slot (k + 1) ws

/-- The exact expansion of a line (R89). -/
def ScriptOp.expand (p : Params) : ScriptOp → List Access
  | .write off d => [busWrite p off d]
  | .read off => [busRead p off]
  | .wrw r v => wideWrites p r.slot 0 (wordsOf p.words v)
  | .rdwResult => (List.range p.words).map fun k => busRead p (0x300 + 4 * k)
  | .setIdx i => [busWrite p 0x014 (BitVec.ofInt 32 i)]
  | .command i => [busWrite p 0x010 (Sys2Proof.encode i)]
  | .waitPoll => [busRead p 0x00C]
  | .ack => [busWrite p 0x00C 0x00000006#32]
  | .irqOn => [busWrite p 0x008 0x00000001#32]
  | .irqOff => [busWrite p 0x008 0x00000000#32]
  | .sreset => [busWrite p 0x008 0x00000002#32]

/-- Does the host's `WAIT` loop go round again on this data of STATUS: is BUSY 1 (R89)? -/
def waitAgain (d : Word) : Bool := d.getLsbD 0

/-- The accesses of a script as inputs of the block, with no engine event between them. -/
def scriptEvents (p : Params) (ops : List ScriptOp) : List Event := (ops.flatMap (ScriptOp.expand p)).map Event.access

end Sys2Proof.Machine
end

