-- ==== Sys2Proof/Safety.lean ====
section
/-! DEFINITION. The terms that claims are stated in: the invariant of the block, what a completion does, polynomials over GF(2)
as numbers (00_scope.md R15), and which inputs leave the block's command alone. -/

namespace Sys2Proof.Machine

/-- The parameters are legal (R7, R8) and every wide register has its N words (R20). -/
abbrev State.Wf (s : State) : Prop :=
  s.params.wf = true ∧ s.opa.length = s.words ∧ s.opb.length = s.words ∧ s.result.length = s.words

/-- While BUSY = 1 neither DONE nor ERR stands (R45, R49), the datapath is loaded only for a command in flight (R41), and
while `rst_n` is low the block is held in the reset state (R232). -/
abbrev State.Lifecycle (s : State) : Prop :=
  (s.phase = .busy → s.done = false ∧ s.err = .none) ∧
  (s.phase = .idle → s.datapath = none) ∧
  (s.rstN = false → s = s.resetRegisters)

/-- The invariant of the block. -/
abbrev State.Inv (s : State) : Prop := s.Wf ∧ s.Lifecycle

/-- `t` is `s` after a successful completion with value `v`: RESULT holds v in its N words, ERR is NONE, BUSY 0 and DONE 1,
and every other field is as in `s` (R46). -/
def CompletesWith (s t : State) (v : Nat) : Prop :=
  t.resultValue = v ∧ t.result.length = s.words ∧
  t = { s with result := t.result, err := .none, phase := .idle, done := true, datapath := none }

/-- `t` is `s` after a completion with error `c`: ERR holds its code, BUSY is 0, DONE 1, and every other field, RESULT among
them, is as in `s` (R46, R212). -/
def FailsWith (s t : State) (c : CmdError) : Prop :=
  t = { s with err := c.errCode, phase := .idle, done := true, datapath := none }

/-- `t` is `s` after a completion with an answer of `Execute` (R46). -/
def AnswersWith (s t : State) : Answer → Prop
  | .ok v => CompletesWith s t v
  | .err c => FailsWith s t c

/-- The XOR of `g << i` over the set bits i of `q` below ordinal `n`. -/
def clmulUpTo (q g : Nat) : Nat → Nat
  | 0 => 0
  | n + 1 => if q.testBit n then clmulUpTo q g n ^^^ (g <<< n) else clmulUpTo q g n

/-- The product `q(x)·g(x)` of polynomials over GF(2), bit i the coefficient of `x^i` (R15). -/
def clmul (q g : Nat) : Nat := clmulUpTo q g (len q)

/-- `g(x)` divides `v(x)` over GF(2) (R15). -/
def Divides (g v : Nat) : Prop := ∃ q, clmul q g = v

/-- `r` is the remainder of `a(x)` divided by `g(x)`: `a = q·g + r` for some q, with `len(r) < len(g)` (R146). -/
def IsRemainder (a g r : Nat) : Prop := len r < len g ∧ ∃ q, a = clmul q g ^^^ r

/-- The number of set bits of `v` below ordinal `n`. -/
def setBitsBelow (v : Nat) : Nat → Nat
  | 0 => 0
  | n + 1 => gb v n + setBitsBelow v n

/-- The datapath after `n` passes from the seed (R143). -/
def datapathAfter (a gen : Nat) : Nat → Datapath
  | 0 => Datapath.seed a gen
  | n + 1 => (datapathAfter a gen n).pass a gen

/-- The loaded datapath is on the way to the remainder that completion answers with (R143, R152): it holds the lengths of the
division of the command in flight, `shift` lies in `-1 .. W - 3`, `reg` lies below `2^g` (R147), and finishing it gives `Rem`. -/
def State.DatapathOnTrack (s : State) : Prop :=
  ∀ d a gen, s.datapath = some d → s.division = some (a, gen) →
    d.g = len gen ∧ d.s = len a ∧ -1 ≤ d.shift ∧ d.shift ≤ (s.width : Int) - 3 ∧ d.reg < 2 ^ d.g ∧
    d.finish a gen = rem a gen

/-- An input that is the engine's own. -/
def Event.isEngine : Event → Bool
  | .pass | .complete => true
  | .access _ | .rstN _ => false

/-- An input that neither completes the command in flight nor resets the block: an internal step of the engine, `rst_n` sampled
high, or an access other than a write of CTRL with bit SRST set (R46, R230). -/
def Event.keepsCommand : Event → Bool
  | .pass => true
  | .complete => false
  | .rstN level => level
  | .access a =>
    match a.op with
    | .read => true
    | .write d => !(offsetOf a.addr == 0x008 && d.getLsbD 1)

/-- The next input of `s` is a 32-bit write of `d` to offset `off` of the window, mapped as device memory, while `rst_n` is high. -/
def NextWrite (s : State) (off : Nat) (d : Word) (rest : List Event) : Prop :=
  s.rstN = true ∧ off < Config.windowBytes ∧
  s.inbox = .access { addr := s.params.base + off, bits := 32, op := .write d, mapping := .device } :: rest

/-- The next input of `s` is a 32-bit read of offset `off` of the window, mapped as device memory, while `rst_n` is high. -/
def NextRead (s : State) (off : Nat) (rest : List Event) : Prop :=
  s.rstN = true ∧ off < Config.windowBytes ∧
  s.inbox = .access { addr := s.params.base + off, bits := 32, op := .read, mapping := .device } :: rest

/-- The offsets that a block with `n` words a wide register maps (R20, R61). -/
def MappedOffset (n off : Nat) : Prop :=
  (∃ j, j < 6 ∧ off = 4 * j) ∨
  (∃ k, k < n ∧ (off = 0x100 + 4 * k ∨ off = 0x200 + 4 * k ∨ off = 0x300 + 4 * k))

/-- The offsets whose registers a busy block keeps from the host: every word of OPA and OPB, IDX and CMD (R47). -/
def FrozenOffset (n off : Nat) : Prop :=
  off = 0x010 ∨ off = 0x014 ∨ ∃ k, k < n ∧ (off = 0x100 + 4 * k ∨ off = 0x200 + 4 * k)

/-- The next input issues the command word `d` (R45). -/
def IsIssue (s : State) (d : Word) : Prop := s.phase = .idle ∧ ∃ rest, NextWrite s 0x010 d rest

/-- The next event is the completion of the command in flight (R46). -/
def IsCompletion (s : State) : Prop := s.phase = .busy ∧ (s.inbox = [] ∨ ∃ rest, s.inbox = .complete :: rest)

/-- The next input resets the block: `rst_n` sampled low, or a write of CTRL with SRST set (R230). -/
def IsReset (s : State) : Prop :=
  (∃ rest, s.inbox = .rstN false :: rest) ∨ (∃ d rest, NextWrite s 0x008 d rest ∧ d.getLsbD 1 = true)

/-- The next input is a host write that a busy block drops (R47). -/
def IsDropped (s : State) : Prop :=
  s.phase = .busy ∧ ∃ off d rest, NextWrite s off d rest ∧ FrozenOffset s.words off

/-- The five BitOps commands, whose argument is the ordinal (R100). -/
def Instr.isBitOp : Instr → Bool
  | .getBit | .setBit | .clearBit | .shiftIn | .xorIfMsbSet => true
  | .remainder | .pad | .encode | .decode => false

/-- The two causes of INVALID_ARGUMENT (R202). -/
def ArgumentInvalid (i : Instr) (opb : Nat) (b : Int) : Prop :=
  (Instr.isBitOp i = true ∧ b < 0) ∨ (Instr.isBitOp i = false ∧ len opb < 2)

/-- The three causes of WIDTH_OVERFLOW (R203). -/
def WidthExceeded (i : Instr) (width opa opb : Nat) (b : Int) : Prop :=
  (i = .setBit ∧ (width : Int) ≤ b) ∨ (i = .shiftIn ∧ opa.testBit (width - 1) = true) ∨
  ((i = .pad ∨ i = .encode) ∧ opa ≠ 0 ∧ width < len opa + len opb - 1)

end Sys2Proof.Machine
end

