-- ==== Sys2Proof/Certificates/Slice0/Obligations.lean ====
section
/-! DEFINITION. The statements for the provers. -/

open Sys2Proof Sys2Proof.Machine

/-! ## Encoding -/

/-- R81: which words are valid, and that the decoder matches the whole word against the table of R82 under the mask 0xFFFFFFFF. -/
def Obligations.ValidCommandWords : Prop :=
  ∀ d : Word,
    ((∃ i, decode d = .ok i) ↔ mbzField d = 0#28 ∧ 1 ≤ (opField d).toNat ∧ (opField d).toNat ≤ 9) ∧
    ((∃ i, decode d = .ok i) ↔ 1 ≤ d.toNat ∧ d.toNat ≤ 9) ∧
    (∀ i, decode d = .ok i ↔
      ∃ r ∈ opcodeTable, r.instr = i ∧ r.mask = 0xFFFFFFFF#32 ∧ d &&& r.mask = r.pattern)

/-- Decoder and encoder agree both ways on every command and every word (R82, R87). -/
def Obligations.DecodeEncodeAgree : Prop :=
  ∀ (i : Instr) (d : Word), i.wf = true → (decode d = .ok i ↔ encode i = d)

/-- The nine words of R82's table, written out, decode to their commands. -/
def Obligations.OpcodeMapWords : Prop :=
  decode 0x00000001#32 = .ok .getBit ∧ decode 0x00000002#32 = .ok .setBit ∧ decode 0x00000003#32 = .ok .clearBit ∧
  decode 0x00000004#32 = .ok .shiftIn ∧ decode 0x00000005#32 = .ok .xorIfMsbSet ∧ decode 0x00000006#32 = .ok .remainder ∧
  decode 0x00000007#32 = .ok .pad ∧ decode 0x00000008#32 = .ok .encode ∧ decode 0x00000009#32 = .ok .decode

/-- R204: every reserved word completes with ILLEGAL_COMMAND, and reads no operand. -/
def Obligations.ReservedWordsAreIllegal : Prop :=
  ∀ (d : Word) (width opa opb : Nat) (b : Int),
    ((opField d = 0x0#4 ∨ 0xA ≤ (opField d).toNat ∨ mbzField d ≠ 0#28) ↔
      execute d width opa opb b = .err .illegalCommand) ∧
    (execute d width opa opb b = .err .illegalCommand →
      ∀ width' opa' opb' b', execute d width' opa' opb' b' = .err .illegalCommand) ∧
    (∀ (s : State) (rest : List Event), s.phase = .busy → s.inbox = .complete :: rest → s.cmd = d →
      execute d width opa opb b = .err .illegalCommand →
      ∃ t, step s = .next t ∧ FailsWith { s with inbox := rest } t .illegalCommand)

/-! ## Steps -/

/-- When the word in CMD decodes to a command, the completion of the command in flight is `exec` of that command at that state,
with the completion taken off the inputs to come; and so is the step that `withFetchWord` prepares. -/
def Obligations.StepRunsDecodedCommand : Prop :=
  (∀ (s : State) (i : Instr) (rest : List Event),
    s.phase = .busy → s.inbox = .complete :: rest → decode s.cmd = .ok i → step s = exec i { s with inbox := rest }) ∧
  (∀ (s : State) (i : Instr), s.phase = .busy → s.inbox = [] → decode s.cmd = .ok i → step s = exec i s) ∧
  (∀ (s : State) (i : Instr),
    step (s.withFetchWord 32 (encode i).toNat) = exec i { s.issue (encode i) with rstN := true })

/-- R46: the completion applies `Execute`'s answer, computed on the registers as they stand, to RESULT and STATUS. -/
def Obligations.CompletionAppliesExecute : Prop :=
  ∀ (s : State) (rest : List Event), s.Wf → s.phase = .busy → s.inbox = .complete :: rest →
    ∃ t, step s = .next t ∧
      AnswersWith { s with inbox := rest } t (execute s.cmd s.width s.opaValue s.opbValue s.ordinal)

/-- R17: `Execute` answers a value below `2^W`. -/
def Obligations.ExecuteAnswersFit : Prop :=
  ∀ (p : Params) (d : Word) (opa opb : Nat) (b : Int) (v : Nat),
    p.wf = true → opa < 2 ^ p.width → opb < 2 ^ p.width → execute d p.width opa opb b = .ok v → v < 2 ^ p.width

/-- R45: issue, for every command word; a reserved word issues like any other and fails at completion. -/
def Obligations.IssueEvent : Prop :=
  ∀ (s : State) (d : Word) (rest : List Event), s.Inv → s.phase = .idle → NextWrite s 0x010 d rest →
    ∃ t, step s = .next t ∧
      t = { s with inbox := rest, response := some .ack, cmd := d, done := false, err := .none, phase := .busy } ∧
      (∀ e, decode d = .error e →
        ∃ u, step { t with inbox := [.complete] } = .next u ∧ FailsWith { t with inbox := [] } u .illegalCommand)

/-- R47: what a busy block does with each host write, and that it serves reads, RESULT's among them. -/
def Obligations.BusyBlockAccesses : Prop :=
  ∀ (s : State) (off : Nat) (d : Word) (rest : List Event), s.Inv → s.phase = .busy →
    (NextWrite s off d rest → FrozenOffset s.words off →
      step s = .next { s with inbox := rest, response := some .ack, ovr := true }) ∧
    (NextWrite s 0x008 d rest → d.getLsbD 1 = false →
      step s = .next { s with inbox := rest, response := some .ack, ie := d.getLsbD 0 }) ∧
    (NextWrite s 0x008 d rest → d.getLsbD 1 = true →
      step s = .next { State.resetWith s.params with inbox := rest, response := some .ack }) ∧
    (NextWrite s 0x00C d rest →
      step s = .next { s with inbox := rest, response := some .ack, ovr := s.ovr && !d.getLsbD 2 }) ∧
    (NextRead s off rest → MappedOffset s.words off →
      ∃ w, step s = .next { s with inbox := rest, response := some (.data w) } ∧
        ∀ k, off = 0x300 + 4 * k → s.result[k]? = some w)

/-- The engine's internal step changes nothing a host access can see (R41, R49). -/
def Obligations.EnginePassIsInvisible : Prop :=
  ∀ (s : State) (rest : List Event), s.inbox = .pass :: rest →
    ∃ t, step s = .next t ∧ t = { s with inbox := rest, datapath := t.datapath } ∧
      (∀ r, readReg t r = readReg s r) ∧ t.irq = s.irq

/-- R49: between issue and completion the host sees STATUS with BUSY 1, DONE 0 and ERR 0 only. -/
def Obligations.BusyStatusReadsOneOrFive : Prop :=
  ∀ (s : State) (rest : List Event), s.Inv → s.phase = .busy → NextRead s 0x00C rest →
    step s = .next { s with inbox := rest, response := some (.data (if s.ovr then 0x00000005#32 else 0x00000001#32)) }

/-! ## Reset -/

/-- The reset state, for every W and BASE, register by register as the host reads it (R42). That `State.reset` takes the reference
W = 128 (R7) and BASE = 0 is the model's choice, assumption 1. -/
def Obligations.ResetState : Prop :=
  State.reset = State.resetWith { width := 128, base := 0 } ∧
  ∀ p : Params, p.wf = true →
    let s := State.resetWith p
    s.params = p ∧ readReg s .id = 0x43524331#32 ∧ (readReg s .param).toNat = p.width ∧
    readReg s .ctrl = 0#32 ∧ s.ie = false ∧ readReg s .status = 0#32 ∧ s.done = false ∧ s.ovr = false ∧ s.err = .none ∧
    readReg s .cmd = 0#32 ∧ readReg s .idx = 0#32 ∧
    (∀ k, k < p.words → s.opa[k]? = some 0#32 ∧ s.opb[k]? = some 0#32 ∧ s.result[k]? = some 0#32) ∧
    s.opaValue = 0 ∧ s.opbValue = 0 ∧ s.resultValue = 0 ∧ s.phase = .idle ∧ s.datapath = none ∧ s.irq = false

/-- The invariant holds of the reset state, for every legal W and BASE. -/
def Obligations.ResetMeetsInvariant : Prop := ∀ p : Params, p.wf = true → (State.resetWith p).Inv

/-- R231: both reset sources put every register in its reset state at once, in whatever phase the block is, with no completion of a
command in flight; ID and PARAM are the constants they were. -/
def Obligations.ResetEffect : Prop :=
  ∀ (s : State) (rest : List Event), s.Wf →
    (s.inbox = .rstN false :: rest →
      step s = .next { State.resetWith s.params with rstN := false, inbox := rest, response := s.response }) ∧
    (∀ d, NextWrite s 0x008 d rest → d.getLsbD 1 = true →
      step s = .next { State.resetWith s.params with inbox := rest, response := some .ack }) ∧
    (∀ t, IsReset s → step s = .next t →
      t.phase = .idle ∧ t.irq = false ∧ t.statusWord = 0#32 ∧
      readReg t .id = readReg s .id ∧ readReg t .param = readReg s .param)

/-- R232: while `rst_n` is low the block stays in the reset state; the first edge with `rst_n` high lets it serve accesses. -/
def Obligations.HeldInReset : Prop :=
  ∀ (s t : State), s.Inv → s.rstN = false → step s = .next t →
    t.phase = .idle ∧ t = { State.resetWith s.params with rstN := t.rstN, inbox := t.inbox, response := s.response } ∧
    (t.rstN = true ↔ ∃ rest, s.inbox = .rstN true :: rest)

/-! ## The register window -/

/-- What a read of each mapped offset returns, and that it changes nothing else (R20, R29, R34 to R38, R67). -/
def Obligations.ReadsReturnRegisters : Prop :=
  ∀ (s : State) (off : Nat) (rest : List Event), s.Wf → NextRead s off rest → MappedOffset s.words off →
    ∃ w, step s = .next { s with inbox := rest, response := some (.data w) } ∧
      (off = 0x000 → w = 0x43524331#32) ∧
      (off = 0x004 → w.toNat = s.width) ∧
      (off = 0x008 → ∀ j, w.getLsbD j = (j == 0 && s.ie)) ∧
      (off = 0x00C → w.getLsbD 0 = (s.phase == .busy) ∧ w.getLsbD 1 = s.done ∧ w.getLsbD 2 = s.ovr ∧ w.getLsbD 3 = false ∧
        w.extractLsb' 4 4 = s.err.code ∧ w.extractLsb' 8 24 = 0#24) ∧
      (off = 0x010 → w = s.cmd) ∧ (off = 0x014 → w = s.idx) ∧
      (∀ k, k < s.words → (off = 0x100 + 4 * k → s.opa[k]? = some w) ∧ (off = 0x200 + 4 * k → s.opb[k]? = some w) ∧
        (off = 0x300 + 4 * k → s.result[k]? = some w))

/-- R64: the words of a wide register against its value. -/
def Obligations.WordLayout : Prop :=
  ∀ (s : State) (slot : Nat) (v : Nat), s.Wf →
    (slot = 0x100 ∧ v = s.opaValue ∨ slot = 0x200 ∧ v = s.opbValue ∨ slot = 0x300 ∧ v = s.resultValue) →
    ∃ word : Nat → Word,
      (∀ k rest, k < s.words → NextRead s (slot + 4 * k) rest →
        step s = .next { s with inbox := rest, response := some (.data (word k)) }) ∧
      v = ∑ k ∈ Finset.range s.words, (word k).toNat * 2 ^ (32 * k) ∧
      (∀ k j, k < s.words → j < 32 → (word k).getLsbD j = v.testBit (32 * k + j)) ∧ v < 2 ^ s.width

/-- A write of a word of OPA or OPB, or of IDX, while idle stores that word and changes nothing else (R22 to R24, R27, R69). -/
def Obligations.OperandWrites : Prop :=
  ∀ (s : State) (d : Word) (rest : List Event), s.Inv → s.phase = .idle →
    (∀ k, k < s.words → NextWrite s (0x100 + 4 * k) d rest →
      ∃ t, step s = .next t ∧ t = { s with inbox := rest, response := some .ack, opa := t.opa } ∧
        t.opa.length = s.words ∧
        ∀ j, t.opaValue.testBit j = if 32 * k ≤ j ∧ j < 32 * k + 32 then d.getLsbD (j - 32 * k) else s.opaValue.testBit j) ∧
    (∀ k, k < s.words → NextWrite s (0x200 + 4 * k) d rest →
      ∃ t, step s = .next t ∧ t = { s with inbox := rest, response := some .ack, opb := t.opb } ∧
        t.opb.length = s.words ∧
        ∀ j, t.opbValue.testBit j = if 32 * k ≤ j ∧ j < 32 * k + 32 then d.getLsbD (j - 32 * k) else s.opbValue.testBit j) ∧
    (NextWrite s 0x014 d rest → step s = .next { s with inbox := rest, response := some .ack, idx := d })

/-- Writes to ID, PARAM and every RESULT word are accepted and ignored, in every phase (R25, R34, R35, R68). -/
def Obligations.ReadOnlyWritesIgnored : Prop :=
  ∀ (s : State) (off : Nat) (d : Word) (rest : List Event), s.Wf → NextWrite s off d rest →
    (off = 0x000 ∨ off = 0x004 ∨ ∃ k, k < s.words ∧ off = 0x300 + 4 * k) →
    step s = .next { s with inbox := rest, response := some .ack }

/-- R39: a write to STATUS clears DONE and OVR where its bits 1 and 2 say so, and changes nothing else. -/
def Obligations.StatusWriteOneToClear : Prop :=
  ∀ (s : State) (d : Word) (rest : List Event), s.Wf → NextWrite s 0x00C d rest →
    ∃ t, step s = .next t ∧ t = { s with inbox := rest, response := some .ack, done := t.done, ovr := t.ovr } ∧
      t.done = (if d.getLsbD 1 then false else s.done) ∧ t.ovr = (if d.getLsbD 2 then false else s.ovr) ∧
      t.busy = s.busy ∧ t.err = s.err ∧ (d = 0x00000006#32 → t.done = false ∧ t.ovr = false)

/-- R36 and R37: a write to CTRL, in either phase, and what CTRL reads; a set SRST does what `rst_n` does, with IE left 0. -/
def Obligations.CtrlWrite : Prop :=
  ∀ (s : State) (d : Word) (rest : List Event), s.Wf → NextWrite s 0x008 d rest →
    ∃ t, step s = .next t ∧
      (d.getLsbD 1 = false → t = { s with inbox := rest, response := some .ack, ie := d.getLsbD 0 }) ∧
      (d.getLsbD 1 = true → t.ie = false ∧
        ∃ u, step { s with inbox := .rstN false :: rest } = .next u ∧
          t = { u with rstN := true, response := some .ack }) ∧
      (∀ j, (readReg t .ctrl).getLsbD j = (j == 0 && t.ie)) ∧ (readReg t .ctrl).getLsbD 1 = false

/-- An access that reaches the port through device memory is a bus error exactly when it is not 32 bits wide, not aligned or not mapped (R62, R63, R206). -/
def Obligations.BusErrorExactly : Prop :=
  ∀ (s : State) (a : Access) (rest : List Event), s.Wf → s.rstN = true → s.inbox = .access a :: rest →
    a.mapping = .device → s.params.base ≤ a.addr → a.addr < s.params.base + 0x400 →
    ((∃ f, step s = .fault f) ↔
      a.bits ≠ 32 ∨ (a.addr - s.params.base) % 4 ≠ 0 ∨ ¬ MappedOffset s.words (a.addr - s.params.base)) ∧
    (a.bits = 32 → MappedOffset s.words (a.addr - s.params.base) → ∃ t, step s = .next t)

/-- Nothing but a host access stops a step: it is refused exactly outside the window (the model's choice, assumption 5), while
`rst_n` is low (R232, duty H6) and through a mapping that is not device memory (duty H7; that the mapping is data of the access
is the model's choice, assumption 9), and it faults only on an access that none of these refuses (R206). -/
def Obligations.OnlyAccessesStop : Prop :=
  ∀ s : State,
    ((∃ r, step s = .refused r) ↔
      ∃ a rest, s.inbox = .access a :: rest ∧
        (¬ (s.params.base ≤ a.addr ∧ a.addr < s.params.base + 0x400) ∨ s.rstN = false ∨ a.mapping ≠ .device)) ∧
    (∀ f, step s = .fault f → ∃ a rest, s.inbox = .access a :: rest ∧
      s.params.base ≤ a.addr ∧ a.addr < s.params.base + 0x400 ∧ s.rstN = true ∧ a.mapping = .device)

/-! ## Whole-machine rules -/

/-- Every step keeps the invariant of the block, and W and BASE. -/
def Obligations.StepKeepsInvariant : Prop :=
  ∀ s t : State, s.Inv → step s = .next t → t.Inv ∧ t.params = s.params

/-- Every step keeps the loaded datapath on the way to the remainder that completion answers with (R143, R147, R152). When
the datapath is loaded and what it holds for ENCODE and PAD are the model's choice, assumption 6. -/
def Obligations.StepKeepsDatapathOnTrack : Prop :=
  ∀ s t : State, s.Inv → s.DatapathOnTrack → step s = .next t → t.DatapathOnTrack

/-- R44: which events move the phase, and that STATUS.BUSY shows it. -/
def Obligations.PhaseMoves : Prop :=
  ∀ s t : State, s.Inv → step s = .next t →
    (s.phase = .idle → (t.phase = .busy ↔ ∃ d, IsIssue s d)) ∧
    (s.phase = .busy → (t.phase = .idle ↔ IsCompletion s ∨ IsReset s)) ∧
    (s.phase = .idle ∨ s.phase = .busy) ∧ (s.phase = .busy ↔ s.statusWord.getLsbD 0 = true)

/-- R31: what sets and clears STATUS.DONE. -/
def Obligations.DoneRule : Prop :=
  ∀ s t : State, s.Inv → step s = .next t →
    (IsCompletion s → t.done = true) ∧
    ((∃ d, IsIssue s d) ∨ (∃ d rest, NextWrite s 0x00C d rest ∧ d.getLsbD 1 = true) ∨ IsReset s → t.done = false) ∧
    (t.done ≠ s.done → IsCompletion s ∨ (∃ d, IsIssue s d) ∨
      (∃ d rest, NextWrite s 0x00C d rest ∧ d.getLsbD 1 = true) ∨ IsReset s)

/-- R32: what sets and clears STATUS.OVR. -/
def Obligations.OvrRule : Prop :=
  ∀ s t : State, s.Inv → step s = .next t →
    (s.ovr = false → (t.ovr = true ↔ IsDropped s)) ∧
    (s.ovr = true → (t.ovr = false ↔ (∃ d rest, NextWrite s 0x00C d rest ∧ d.getLsbD 2 = true) ∨ IsReset s)) ∧
    ((∃ d, IsIssue s d) ∨ IsCompletion s → t.ovr = s.ovr)

/-- The operands change only by a host write accepted while idle or by a reset, CMD only by an issue or a reset, and RESULT only
by a completion that ends with ERR = NONE or by a reset (R25, R27, R38). -/
def Obligations.RegistersChangeOnlyBy : Prop :=
  ∀ s t : State, s.Inv → step s = .next t →
    (t.opa ≠ s.opa → IsReset s ∨ s.phase = .idle ∧ ∃ k d rest, k < s.words ∧ NextWrite s (0x100 + 4 * k) d rest) ∧
    (t.opb ≠ s.opb → IsReset s ∨ s.phase = .idle ∧ ∃ k d rest, k < s.words ∧ NextWrite s (0x200 + 4 * k) d rest) ∧
    (t.idx ≠ s.idx → IsReset s ∨ s.phase = .idle ∧ ∃ d rest, NextWrite s 0x014 d rest) ∧
    (t.cmd ≠ s.cmd → IsReset s ∨ IsIssue s t.cmd) ∧
    (t.result ≠ s.result → IsReset s ∨ IsCompletion s ∧ t.err = .none)

/-- `irq` is CTRL.IE and STATUS.DONE, a completion raises it while IE = 1, and beside a completion only a write of IE = 1 while
DONE = 1 raises it; a reset clears it (R43, R209, R210, R211). -/
def Obligations.IrqRule : Prop :=
  ∀ s t : State, s.Inv → step s = .next t →
    (t.irq = true ↔ t.ie = true ∧ t.done = true) ∧
    (IsCompletion s → t.irq = s.ie) ∧
    (s.irq = false → t.irq = true →
      IsCompletion s ∧ s.ie = true ∨
      s.done = true ∧ ∃ d rest, NextWrite s 0x008 d rest ∧ d.getLsbD 0 = true ∧ d.getLsbD 1 = false) ∧
    (IsReset s → t.irq = false)

/-- R212: a completion with an error changes BUSY, DONE and ERR of STATUS and no other register. -/
def Obligations.FailureChangesOnlyStatus : Prop :=
  ∀ s t : State, s.Inv → IsCompletion s → step s = .next t → t.err ≠ .none →
    t.phase = .idle ∧ t.done = true ∧ (t.statusWord.extractLsb' 4 4 = t.err.code) ∧
    (∀ r, r ≠ .status → readReg t r = readReg s r) ∧ t.ovr = s.ovr ∧ t.ie = s.ie

/-- From issue to completion the operands are frozen: whatever accesses, internal steps and levels of `rst_n` come between, the
completion answers on the operands as they stood (R46, R47). -/
def Obligations.OperandsFrozenUntilCompletion : Prop :=
  ∀ (s t : State) (evs : List Event), s.Inv → s.phase = .busy → s.inbox = evs ++ [.complete] →
    (∀ e ∈ evs, e.keepsCommand = true) → Host.Core.run Sys2Proof.core (evs.length + 1) s = .next t →
    t.phase = .idle ∧ t.done = true ∧ t.cmd = s.cmd ∧ t.opa = s.opa ∧ t.opb = s.opb ∧ t.idx = s.idx ∧ t.params = s.params ∧
    match execute s.cmd s.width s.opaValue s.opbValue s.ordinal with
    | .ok v => t.err = .none ∧ t.resultValue = v
    | .err c => t.err = c.errCode ∧ t.result = s.result

/-- R243: a busy engine that the host leaves alone completes, however its internal steps are placed. -/
def Obligations.EngineCompletes : Prop :=
  ∀ s : State, s.Inv → s.phase = .busy → (∀ e ∈ s.inbox, e.isEngine = true) →
    ∃ t, Host.Core.run Sys2Proof.core (s.inbox.length + 1) s = .next t ∧ t.phase = .idle ∧ t.done = true ∧ t.cmd = s.cmd

/-- R89: the expansion of `WRW` on an idle block leaves the operand register holding the value and nothing else changed. -/
def Obligations.WideWriteExpansion : Prop :=
  ∀ (s : State) (r : WideOperand) (v : Nat), s.Inv → s.phase = .idle → s.rstN = true →
    (ScriptOp.wrw r v).wf s.params = true →
    s.inbox = ((ScriptOp.wrw r v).expand s.params).map Event.access →
    ∃ t, Host.Core.run Sys2Proof.core s.words s = .next t ∧
      match r with
      | .opa => t.opaValue = v ∧ t.opa.length = s.words ∧ t = { s with inbox := [], response := some .ack, opa := t.opa }
      | .opb => t.opbValue = v ∧ t.opb.length = s.words ∧ t = { s with inbox := [], response := some .ack, opb := t.opb }

/-! ## Operands -/

/-- R85: the ordinal is IDX in two's complement. -/
def Obligations.SignedOrdinal : Prop :=
  ∀ s : State, s.ordinal = s.idx.toInt ∧ -(2 ^ 31) ≤ s.ordinal ∧ s.ordinal < 2 ^ 31 ∧
    (s.idx = 0xFFFFFFFF#32 → s.ordinal = -1) ∧ (s.idx = 0x00000080#32 → s.ordinal = 128)

/-- R12: the length of a number, from its value alone. -/
def Obligations.LengthOfValue : Prop :=
  len 0 = 0 ∧ ∀ v k : Nat, 0 < v → (len v = k + 1 ↔ v.testBit k = true ∧ ∀ i, k < i → v.testBit i = false)

/-! ## BitOps commands -/

/-- R101. -/
def Obligations.GetBitCompletes : Prop :=
  decode 0x00000001#32 = .ok .getBit ∧
  ∀ s : State, s.Wf → ∃ t, exec .getBit s = .next t ∧
    (s.ordinal < 0 → FailsWith s t .invalidArgument) ∧
    (0 ≤ s.ordinal → CompletesWith s t (if s.opaValue.testBit s.ordinal.toNat then 1 else 0)) ∧
    (0 ≤ s.ordinal → len s.opaValue ≤ s.ordinal.toNat ∨ s.width ≤ s.ordinal.toNat ∨ s.opaValue = 0 → CompletesWith s t 0)

/-- R102. -/
def Obligations.SetBitCompletes : Prop :=
  decode 0x00000002#32 = .ok .setBit ∧
  ∀ s : State, s.Wf → ∃ t, exec .setBit s = .next t ∧
    (s.ordinal < 0 → FailsWith s t .invalidArgument) ∧
    ((s.width : Int) ≤ s.ordinal → FailsWith s t .widthOverflow) ∧
    (0 ≤ s.ordinal → s.ordinal < s.width → ∃ v, CompletesWith s t v ∧
      (∀ j, v.testBit j = (s.opaValue.testBit j || j == s.ordinal.toNat)) ∧
      (s.opaValue.testBit s.ordinal.toNat = true → v = s.opaValue) ∧ (s.opaValue = 0 → v = 2 ^ s.ordinal.toNat))

/-- R103. -/
def Obligations.ClearBitCompletes : Prop :=
  decode 0x00000003#32 = .ok .clearBit ∧
  ∀ s : State, s.Wf → ∃ t, exec .clearBit s = .next t ∧
    (s.ordinal < 0 → FailsWith s t .invalidArgument) ∧
    (0 ≤ s.ordinal → ∃ v, CompletesWith s t v ∧
      (∀ j, v.testBit j = (s.opaValue.testBit j && j != s.ordinal.toNat)) ∧
      (len s.opaValue ≤ s.ordinal.toNat ∨ s.width ≤ s.ordinal.toNat → v = s.opaValue))

/-- R104. -/
def Obligations.ShiftInCompletes : Prop :=
  decode 0x00000004#32 = .ok .shiftIn ∧
  ∀ s : State, s.Wf → ∃ t, exec .shiftIn s = .next t ∧
    (s.ordinal < 0 → FailsWith s t .invalidArgument) ∧
    (0 ≤ s.ordinal → s.opaValue.testBit (s.width - 1) = true → FailsWith s t .widthOverflow) ∧
    (0 ≤ s.ordinal → s.opaValue.testBit (s.width - 1) = false → ∃ v, CompletesWith s t v ∧
      v.testBit 0 = s.opbValue.testBit s.ordinal.toNat ∧ (∀ j, v.testBit (j + 1) = s.opaValue.testBit j) ∧
      (len s.opbValue ≤ s.ordinal.toNat ∨ s.width ≤ s.ordinal.toNat → v = 2 * s.opaValue))

/-- R105. -/
def Obligations.XorIfMsbSetCompletes : Prop :=
  decode 0x00000005#32 = .ok .xorIfMsbSet ∧
  ∀ s : State, s.Wf → ∃ t, exec .xorIfMsbSet s = .next t ∧
    (s.ordinal < 0 → FailsWith s t .invalidArgument) ∧
    (0 ≤ s.ordinal → s.opaValue.testBit s.ordinal.toNat = true → ∃ v, CompletesWith s t v ∧
      (∀ j, v.testBit j = (s.opaValue.testBit j ^^ s.opbValue.testBit j)) ∧ (s.opaValue = s.opbValue → v = 0)) ∧
    (0 ≤ s.ordinal → s.opaValue.testBit s.ordinal.toNat = false → CompletesWith s t s.opaValue)

/-- R107: the derived laws, of the values that the commands answer with. -/
def Obligations.BitOpLaws : Prop :=
  ∀ (width v b src operand : Nat), v < 2 ^ width → b < width →
    answerOf .getBit width v src b = .ok (gb v b) ∧ answerOf .setBit width v src b = .ok (setBitValue v b) ∧
    answerOf .clearBit width v src b = .ok (clearBitValue v b) ∧
    answerOf .xorIfMsbSet width v operand b = .ok (xorIfMsbSetValue v b operand) ∧
    gb (setBitValue v b) b = 1 ∧ gb (clearBitValue v b) b = 0 ∧
    clearBitValue (setBitValue v b) b = clearBitValue v b ∧ setBitValue (clearBitValue v b) b = setBitValue v b ∧
    (gb v (width - 1) = 0 → answerOf .shiftIn width v src b = .ok (shiftInValue v b src) ∧
      shiftInValue v b src >>> 1 = v ∧ shiftInValue v b src &&& 1 = gb src b) ∧
    (gb operand b = 0 → xorIfMsbSetValue (xorIfMsbSetValue v b operand) b operand = v)

/-! ## REMAINDER and the engine -/

/-- REMAINDER answers the remainder of OPA(x) by OPB(x) over GF(2), the only number that is one (R140, R141, R145, R146). -/
def Obligations.RemainderIsPolynomialRemainder : Prop :=
  ∀ s : State, s.Wf → ∃ t, exec .remainder s = .next t ∧
    (len s.opbValue < 2 → FailsWith s t .invalidArgument) ∧
    (2 ≤ len s.opbValue → ∃ r, CompletesWith s t r ∧ IsRemainder s.opaValue s.opbValue r ∧
      ∀ r', IsRemainder s.opaValue s.opbValue r' → r' = r)

/-- R145: the bounds on the remainder. -/
def Obligations.RemainderBound : Prop :=
  ∀ a gen : Nat, 2 ≤ len gen →
    len (rem a gen) < len gen ∧ rem a gen < 2 ^ (len gen - 1) ∧ 2 ^ (len gen - 1) ≤ gen ∧ rem a gen < gen

/-- R147: on every pass, step (1) leaves `reg` below `2^(g-1)`, step (2) below `2^g`, and step (3) changes nothing. -/
def Obligations.MaskNeverChangesReg : Prop :=
  ∀ a gen k : Nat, 2 ≤ len gen → k < len a - len gen →
    let d := datapathAfter a gen k
    let r1 := xorIfMsbSetValue d.reg (len gen - 1) gen
    let r2 := shiftInValue r1 d.shift.toNat a
    (k = 0 → len d.reg = len gen) ∧ len d.reg ≤ len gen ∧ r1 < 2 ^ (len gen - 1) ∧ r2 < 2 ^ len gen ∧
    clearBitValue r2 (len gen) = r2 ∧ (datapathAfter a gen (k + 1)).reg = r2

/-- The loop makes exactly `max(0, s - g)` passes, one for each `shift` from `s - g - 1` down to 0, so at most `W - 2` (R148);
`Rem` is the final step after them (R144). That `shift` is -1 where `s < g`, and not the `s - g - 1` of R142, is the model's
choice (DEDUCED from the range in R152, assumption 6). -/
def Obligations.LoopPassCount : Prop :=
  ∀ width a gen : Nat, a < 2 ^ width → 2 ≤ len gen →
    (∀ k, k < len a - len gen → (datapathAfter a gen k).shift = ((len a - len gen - 1 - k : Nat) : Int)) ∧
    (datapathAfter a gen (len a - len gen)).shift = -1 ∧ len a - len gen ≤ width - 2 ∧
    rem a gen = xorIfMsbSetValue (datapathAfter a gen (len a - len gen)).reg (len gen - 1) gen

/-- R150: the corner cases of the division, with a generator that passes its check. -/
def Obligations.RemainderCornerCases : Prop :=
  ∀ a gen k : Nat, 2 ≤ len gen →
    rem 0 gen = 0 ∧ (len a < len gen → rem a gen = a) ∧ (len a = len gen → rem a gen = a ^^^ gen) ∧
    rem gen gen = 0 ∧ rem (gen <<< k) gen = 0 ∧ rem 0b100 0b11 = 0b1

/-- `Rem` is linear over XOR (R177, from R146). -/
def Obligations.RemainderLinear : Prop :=
  ∀ a b gen : Nat, 2 ≤ len gen → rem (a ^^^ b) gen = rem a gen ^^^ rem b gen

/-! ## Codec commands -/

/-- R170. -/
def Obligations.PadCompletes : Prop :=
  decode 0x00000007#32 = .ok .pad ∧
  ∀ s : State, s.Wf → ∃ t, exec .pad s = .next t ∧
    (len s.opbValue < 2 → FailsWith s t .invalidArgument) ∧
    (2 ≤ len s.opbValue → s.opaValue ≠ 0 → s.width < len s.opaValue + len s.opbValue - 1 → FailsWith s t .widthOverflow) ∧
    (2 ≤ len s.opbValue → s.opaValue = 0 ∨ len s.opaValue + len s.opbValue - 1 ≤ s.width →
      CompletesWith s t (s.opaValue * 2 ^ (len s.opbValue - 1)))

/-- ENCODE keeps the payload above `g - 1` check bits, which are the remainder of the padded payload, and the codeword is divisible
by the generator (R171, R173). -/
def Obligations.EncodeAppendsCheckBits : Prop :=
  decode 0x00000008#32 = .ok .encode ∧
  ∀ s : State, s.Wf → ∃ t, exec .encode s = .next t ∧
    (len s.opbValue < 2 → FailsWith s t .invalidArgument) ∧
    (2 ≤ len s.opbValue → s.opaValue ≠ 0 → s.width < len s.opaValue + len s.opbValue - 1 → FailsWith s t .widthOverflow) ∧
    (2 ≤ len s.opbValue → s.opaValue = 0 ∨ len s.opaValue + len s.opbValue - 1 ≤ s.width →
      ∃ v, CompletesWith s t v ∧ v >>> (len s.opbValue - 1) = s.opaValue ∧
        IsRemainder (s.opaValue * 2 ^ (len s.opbValue - 1)) s.opbValue (v % 2 ^ (len s.opbValue - 1)) ∧
        Divides s.opbValue v ∧ (s.opaValue = 0 → v = 0) ∧ (s.opaValue = 1 → v = s.opbValue))

/-- DECODE tells whether OPB(x) divides OPA(x); a false answer is no error (R174, R175, R178). -/
def Obligations.DecodeTestsDivisibility : Prop :=
  decode 0x00000009#32 = .ok .decode ∧
  ∀ s : State, s.Wf → ∃ t, exec .decode s = .next t ∧
    (len s.opbValue < 2 → FailsWith s t .invalidArgument) ∧
    (2 ≤ len s.opbValue → Divides s.opbValue s.opaValue → CompletesWith s t 1) ∧
    (2 ≤ len s.opbValue → ¬ Divides s.opbValue s.opaValue → CompletesWith s t 0) ∧
    (2 ≤ len s.opbValue → s.opaValue = 0 ∨ s.opaValue = s.opbValue → CompletesWith s t 1) ∧
    (2 ≤ len s.opbValue → 0 < len s.opaValue → len s.opaValue < len s.opbValue → CompletesWith s t 0)

/-- R172: the addition in ENCODE never carries. -/
def Obligations.EncodeNeverCarries : Prop :=
  ∀ a gen : Nat, 2 ≤ len gen →
    padValue a gen % 2 ^ (len gen - 1) = 0 ∧ rem (padValue a gen) gen < 2 ^ (len gen - 1) ∧
    padValue a gen &&& rem (padValue a gen) gen = 0 ∧
    padValue a gen + rem (padValue a gen) gen = padValue a gen ||| rem (padValue a gen) gen ∧
    padValue a gen + rem (padValue a gen) gen = padValue a gen ^^^ rem (padValue a gen) gen

/-- R180: the lengths of the results of PAD and ENCODE, and that the width check is exactly "does not fit in W bits". -/
def Obligations.CodecResultLengths : Prop :=
  ∀ width a gen : Nat, a < 2 ^ width → gen < 2 ^ width → 2 ≤ len gen →
    (a ≠ 0 → len (padValue a gen) = len a + len gen - 1 ∧ len (encodeValue a gen) = len a + len gen - 1) ∧
    padValue 0 gen = 0 ∧ encodeValue 0 gen = 0 ∧
    (padOverflows width a gen = true ↔ 2 ^ width ≤ padValue a gen) ∧
    (padOverflows width a gen = true ↔ 2 ^ width ≤ encodeValue a gen)

/-- R173 and the round trip of R177, on the machine: ENCODE, its RESULT copied to OPA, then REMAINDER gives 0 and DECODE gives 1. -/
def Obligations.EncodeRoundTrip : Prop :=
  ∀ s : State, s.Wf → 2 ≤ len s.opbValue → s.opaValue = 0 ∨ len s.opaValue + len s.opbValue - 1 ≤ s.width →
    ∃ t u v, exec .encode s = .next t ∧ t.err = .none ∧
      exec .remainder { t with opa := t.result } = .next u ∧ CompletesWith { t with opa := t.result } u 0 ∧
      exec .decode { t with opa := t.result } = .next v ∧ CompletesWith { t with opa := t.result } v 1

/-- The bit-flip condition of R177, which the spec marks as derived and in part from general knowledge. -/
def Obligations.SingleBitFlips : Prop :=
  ∀ c gen i : Nat, 2 ≤ len gen → rem c gen = 0 →
    rem (c ^^^ 2 ^ i) gen = rem (2 ^ i) gen ∧
    (decodeValue (c ^^^ 2 ^ i) gen = 0 ↔ ¬ Divides gen (2 ^ i)) ∧
    (2 ≤ setBitsBelow gen (len gen) → decodeValue (c ^^^ 2 ^ i) gen = 0) ∧
    (setBitsBelow gen (len gen) = 1 → len gen - 1 ≤ i → decodeValue (c ^^^ 2 ^ i) gen = 1)

/-! ## Errors and purity -/

/-- R202: INVALID_ARGUMENT is raised in exactly its two cases; WIDTH_OVERFLOW in exactly its three where the argument is valid (R203, R208). -/
def Obligations.ErrorsExactly : Prop :=
  ∀ (s : State) (i : Instr), s.Wf → ∃ t, exec i s = .next t ∧
    (t.err = .invalidArgument ↔ ArgumentInvalid i s.opbValue s.ordinal) ∧
    (t.err = .widthOverflow ↔
      ¬ ArgumentInvalid i s.opbValue s.ordinal ∧ WidthExceeded i s.width s.opaValue s.opbValue s.ordinal) ∧
    t.err ≠ .illegalCommand

/-- R208: the checks run in order and the first that fails decides. -/
def Obligations.CheckPriority : Prop :=
  ∀ (d : Word) (width opa opb : Nat) (b : Int),
    (∀ e, decode d = .error e → execute d width opa opb b = .err .illegalCommand) ∧
    (∀ i, decode d = .ok i → ArgumentInvalid i opb b → execute d width opa opb b = .err .invalidArgument) ∧
    (∀ i, decode d = .ok i → ¬ ArgumentInvalid i opb b → WidthExceeded i width opa opb b →
      execute d width opa opb b = .err .widthOverflow) ∧
    (∀ i, decode d = .ok i → ¬ ArgumentInvalid i opb b → ¬ WidthExceeded i width opa opb b →
      ∃ v, execute d width opa opb b = .ok v)

/-- RESULT and ERR depend on the operands that a command reads and on nothing else (R23, R24, R106, R149, R179). -/
def Obligations.ResultDependsOnOperandsOnly : Prop :=
  ∀ (s s' : State) (i : Instr), s.params = s'.params → s.opa = s'.opa →
    (i ≠ .getBit → i ≠ .setBit → i ≠ .clearBit → s.opb = s'.opb) → (Instr.isBitOp i = true → s.idx = s'.idx) →
    ∃ t t', exec i s = .next t ∧ exec i s' = .next t' ∧ t.err = t'.err ∧
      (t.err = .none → t.result = t'.result) ∧ (t.err ≠ .none → t.result = s.result ∧ t'.result = s'.result)
end

