-- ==== Sys2Proof/Laws/Operands.lean ====
section
/-! SUPPORT. What `gb`, `len`, `valueOf` and `wordsOf` say, in terms of bits and powers of two. -/

namespace Sys2Proof.Machine

/-- `gb` is the bit, as a number. -/
theorem gb_eq_toNat (v b : Nat) : gb v b = (v.testBit b).toNat := by
  simp only [gb, Nat.testBit, Nat.and_one_is_mod, Nat.one_and_eq_mod_two]
  rcases Nat.mod_two_eq_zero_or_one (v >>> b) with h | h <;> simp [h]

theorem gb_eq_one_iff (v b : Nat) : gb v b = 1 ↔ v.testBit b = true := by
  rw [gb_eq_toNat]; cases v.testBit b <;> simp

theorem gb_eq_zero_iff (v b : Nat) : gb v b = 0 ↔ v.testBit b = false := by
  rw [gb_eq_toNat]; cases v.testBit b <;> simp

@[simp] theorem len_zero : len 0 = 0 := rfl

theorem len_pos_iff (v : Nat) : 0 < len v ↔ v ≠ 0 := by
  unfold len; split <;> simp_all

/-- `len v ≤ n` says that v has no bit at or above n. -/
theorem len_le_iff (v n : Nat) : len v ≤ n ↔ v < 2 ^ n := by
  unfold len
  split
  · simp_all
  · rename_i h
    rw [← Nat.log2_lt h]; omega

theorem lt_two_pow_len (v : Nat) : v < 2 ^ len v := (len_le_iff v _).1 le_rfl

theorem lt_len_iff (v n : Nat) : n < len v ↔ 2 ^ n ≤ v := by
  have := len_le_iff v n; omega

theorem two_pow_len_le {v : Nat} (h : v ≠ 0) : 2 ^ (len v - 1) ≤ v := by
  have := (len_pos_iff v).2 h
  exact (lt_len_iff v _).1 (by omega)

/-- The top bit of a number is set. -/
theorem testBit_len_sub_one {v : Nat} (h : v ≠ 0) : v.testBit (len v - 1) = true := by
  have h1 := lt_two_pow_len v
  have h2 := two_pow_len_le h
  have h3 := (len_pos_iff v).2 h
  have e : len v = (len v - 1) + 1 := by omega
  rw [Nat.testBit_eq_decide_div_mod_eq]
  have : v / 2 ^ (len v - 1) = 1 := by
    apply Nat.div_eq_of_lt_le
    · omega
    · have h4 := h1
      rw [e, pow_succ] at h4
      omega
  simp [this]

theorem testBit_of_len_le {v b : Nat} (h : len v ≤ b) : v.testBit b = false :=
  Nat.testBit_lt_two_pow ((len_le_iff v b).1 h)

@[simp] theorem wordsOf_length (n v : Nat) : (wordsOf n v).length = n := by
  induction n generalizing v with
  | zero => rfl
  | succ n ih => simp [wordsOf, ih]

theorem valueOf_lt (l : List Word) : valueOf l < 2 ^ (32 * l.length) := by
  induction l with
  | nil => simp [valueOf]
  | cons w ws ih =>
    have hw := w.isLt
    rw [List.length_cons, show 32 * (ws.length + 1) = 32 + 32 * ws.length by ring, pow_add]
    simp only [valueOf]
    nlinarith

/-- A number below `2^(32 n)` is the value of its n words. -/
theorem valueOf_wordsOf {n v : Nat} (h : v < 2 ^ (32 * n)) : valueOf (wordsOf n v) = v := by
  induction n generalizing v with
  | zero => simp_all [wordsOf, valueOf]
  | succ n ih =>
    have h' : v >>> 32 < 2 ^ (32 * n) := by
      rw [Nat.shiftRight_eq_div_pow, Nat.div_lt_iff_lt_mul (by positivity), ← pow_add]
      rwa [show 32 * n + 32 = 32 * (n + 1) by ring]
    rw [wordsOf, valueOf, ih h', BitVec.toNat_ofNat, Nat.shiftRight_eq_div_pow]
    exact Nat.mod_add_div v (2 ^ 32)

/-- The words of the value of a register are the register's words. -/
theorem wordsOf_valueOf (l : List Word) : wordsOf l.length (valueOf l) = l := by
  induction l with
  | nil => rfl
  | cons w ws ih =>
    have hw := w.isLt
    have h1 : (w.toNat + 2 ^ 32 * valueOf ws) >>> 32 = valueOf ws := by
      rw [Nat.shiftRight_eq_div_pow]; omega
    have h2 : BitVec.ofNat 32 (w.toNat + 2 ^ 32 * valueOf ws) = w := by
      apply BitVec.eq_of_toNat_eq
      simp only [BitVec.toNat_ofNat]; omega
    simp only [List.length_cons, wordsOf, valueOf, h1, h2, ih]

@[simp] theorem valueOf_replicate_zero (n : Nat) : valueOf (List.replicate n 0#32) = 0 := by
  induction n with
  | zero => rfl
  | succ n ih => simp [List.replicate_succ, valueOf, ih]

/-- Bit `32 k + j` of a register is bit j of its word k. -/
theorem testBit_valueOf (l : List Word) (k j : Nat) (hj : j < 32) :
    (valueOf l).testBit (32 * k + j) = (l.getD k 0#32).getLsbD j := by
  induction l generalizing k with
  | nil => simp [valueOf]
  | cons w ws ih =>
    have hw := w.isLt
    cases k with
    | zero =>
      simp only [valueOf, Nat.mul_zero, Nat.zero_add, List.getD_cons_zero]
      rw [Nat.add_comm, Nat.testBit_two_pow_mul_add _ hw]
      simp [hj, BitVec.testBit_toNat]
    | succ k =>
      simp only [valueOf, List.getD_cons_succ]
      rw [Nat.add_comm, Nat.testBit_two_pow_mul_add _ hw, if_neg (by omega), ← ih]
      congr 1; omega

theorem Params.wf_iff (p : Params) :
    p.wf = true ↔ p.width % 32 = 0 ∧ 64 ≤ p.width ∧ p.width ≤ 2048 ∧ p.base % 0x400 = 0 := by
  simp [Params.wf, Config.windowBytes, and_assoc]

/-- `W = 32 N` for legal parameters (R7). -/
theorem Params.wf_width {p : Params} (h : p.wf = true) : p.width = 32 * p.words := by
  have := (Params.wf_iff p).1 h
  simp only [Params.words]; omega

theorem State.Wf.opa_lt {s : State} (h : s.Wf) : s.opaValue < 2 ^ s.width := by
  have := valueOf_lt s.opa
  rwa [h.2.1, State.words, ← Params.wf_width h.1] at this

theorem State.Wf.opb_lt {s : State} (h : s.Wf) : s.opbValue < 2 ^ s.width := by
  have := valueOf_lt s.opb
  rwa [h.2.2.1, State.words, ← Params.wf_width h.1] at this

theorem State.Wf.result_lt {s : State} (h : s.Wf) : s.resultValue < 2 ^ s.width := by
  have := valueOf_lt s.result
  rwa [h.2.2.2, State.words, ← Params.wf_width h.1] at this

/-- A successful completion with a value below `2^W` leaves RESULT holding it (R46). -/
theorem State.completeOk_resultValue {s : State} (h : s.Wf) {v : Nat} (hv : v < 2 ^ s.width) :
    (s.completeOk v).resultValue = v := by
  apply valueOf_wordsOf
  rwa [State.words, ← Params.wf_width h.1]

theorem completesWith_completeOk {s : State} (h : s.Wf) {v : Nat} (hv : v < 2 ^ s.width) :
    CompletesWith s (s.completeOk v) v :=
  ⟨State.completeOk_resultValue h hv, wordsOf_length _ _, rfl⟩

theorem failsWith_completeErr (s : State) (c : CmdError) : FailsWith s (s.completeErr c) c := rfl

end Sys2Proof.Machine
end

