-- ==== Sys2Proof/Laws/BitOps.lean ====
section
/-! SUPPORT. The bits of what the source's primitives compute (40_bitops.md R101 to R105). -/

namespace Sys2Proof.Machine

theorem testBit_setBitValue (v b j : Nat) : (setBitValue v b).testBit j = (v.testBit j || decide (b = j)) := by
  simp [setBitValue, Nat.testBit_or, Nat.shiftLeft_eq, Nat.testBit_two_pow]

theorem testBit_clearBitValue (v b j : Nat) : (clearBitValue v b).testBit j = (v.testBit j && !decide (b = j)) := by
  unfold clearBitValue
  split
  · rename_i h
    rw [gb_eq_one_iff] at h
    rw [Nat.testBit_xor, Nat.shiftLeft_eq, one_mul, Nat.testBit_two_pow]
    by_cases e : b = j
    · subst e; simp [h]
    · simp [e]
  · rename_i h
    rw [gb_eq_one_iff] at h
    by_cases e : b = j
    · subst e; simp [h]
    · simp [e]

theorem testBit_shiftInValue_zero (v b src : Nat) : (shiftInValue v b src).testBit 0 = src.testBit b := by
  simp only [shiftInValue, Nat.testBit_or, Nat.testBit_shiftLeft, gb_eq_toNat]
  cases src.testBit b <;> simp

theorem testBit_shiftInValue_succ (v b src j : Nat) : (shiftInValue v b src).testBit (j + 1) = v.testBit j := by
  simp only [shiftInValue, Nat.testBit_or, Nat.testBit_shiftLeft, gb_eq_toNat]
  cases src.testBit b <;> simp [Nat.testBit_succ]

/-- Shifting in a bit, as arithmetic. -/
theorem shiftInValue_eq (v b src : Nat) : shiftInValue v b src = 2 * v + (src.testBit b).toNat := by
  apply Nat.eq_of_testBit_eq
  intro j
  cases j with
  | zero =>
    rw [testBit_shiftInValue_zero, Nat.testBit_zero]
    cases src.testBit b <;> simp
  | succ j =>
    rw [testBit_shiftInValue_succ, Nat.testBit_succ]
    congr 1
    cases src.testBit b
    · simp
    · simp only [Bool.toNat_true]; omega

theorem testBit_xorIfMsbSetValue (v b operand j : Nat) :
    (xorIfMsbSetValue v b operand).testBit j = (v.testBit j ^^ (v.testBit b && operand.testBit j)) := by
  unfold xorIfMsbSetValue
  split <;> rename_i h <;> rw [gb_eq_one_iff] at h
  · simp [h]
  · simp [Bool.not_eq_true _ ▸ h]

/-- Subtracting an operand whose top bit is at b leaves v below `2^b`, where v had no bit above b (R147). -/
theorem xorIfMsbSetValue_lt {v b operand : Nat} (hv : v < 2 ^ (b + 1)) (ho : operand < 2 ^ (b + 1))
    (hb : operand.testBit b = true) : xorIfMsbSetValue v b operand < 2 ^ b := by
  apply Nat.lt_pow_two_of_testBit
  intro j hj
  rw [testBit_xorIfMsbSetValue]
  rcases Nat.eq_or_lt_of_le hj with rfl | hlt
  · rw [hb]; cases v.testBit b <;> rfl
  · have h1 : v.testBit j = false :=
      Nat.testBit_lt_two_pow (lt_of_lt_of_le hv (Nat.pow_le_pow_right (by norm_num) hlt))
    have h2 : operand.testBit j = false :=
      Nat.testBit_lt_two_pow (lt_of_lt_of_le ho (Nat.pow_le_pow_right (by norm_num) hlt))
    simp [h1, h2]

/-- Clearing a bit that is 0 changes nothing. -/
theorem clearBitValue_of_lt {v b : Nat} (h : v < 2 ^ b) : clearBitValue v b = v := by
  have : v.testBit b = false := Nat.testBit_lt_two_pow h
  simp [clearBitValue, gb_eq_one_iff, this]

end Sys2Proof.Machine
end

