-- ==== Sys2Proof/Laws/Decode.lean ====
section
/-! SUPPORT. What the decoder can answer, case by case (30_encoding.md R81, R83). -/

namespace Sys2Proof

/-- The mask of R81 keeps the whole word. -/
theorem and_wordMask (d : Word) : d &&& 0xFFFFFFFF#32 = d := by
  rw [show (0xFFFFFFFF#32 : Word) = BitVec.allOnes 32 by decide, BitVec.and_allOnes]

/-- A word that decodes is one of the nine words of the opcode map, with its command (R82). -/
theorem decode_ok_cases {d : Word} {i : Instr} (h : decode d = .ok i) :
    (d = 1#32 ∧ i = .getBit) ∨ (d = 2#32 ∧ i = .setBit) ∨ (d = 3#32 ∧ i = .clearBit) ∨ (d = 4#32 ∧ i = .shiftIn) ∨
    (d = 5#32 ∧ i = .xorIfMsbSet) ∨ (d = 6#32 ∧ i = .remainder) ∨ (d = 7#32 ∧ i = .pad) ∨ (d = 8#32 ∧ i = .encode) ∨
    (d = 9#32 ∧ i = .decode) := by
  unfold decode at h
  split at h
  · rename_i r hr
    have hm := List.mem_of_find?_eq_some hr
    have hf := List.find?_some hr
    cases h
    simp only [opcodeTable, List.mem_cons, List.not_mem_nil, or_false] at hm
    rcases hm with rfl | rfl | rfl | rfl | rfl | rfl | rfl | rfl | rfl <;>
      · simp only [OpcodeRow.fits, and_wordMask, beq_iff_eq] at hf
        simp [hf]
  · split at h <;> cases h

/-- A word that does not decode is none of the nine (R83). -/
theorem decode_error_ne {d : Word} {e : DecodeError} (h : decode d = .error e) (i : Instr) : d ≠ encode i := by
  rintro rfl
  revert h
  cases i <;> cases e <;> decide

end Sys2Proof
end

