-- ==== Sys2Proof/Laws/State.lean ====
section
/-! SUPPORT. One lemma per field for each named update of State, so that no later proof unfolds a record update. -/

namespace Sys2Proof.Machine

@[simp] theorem State.issue_params (s : State) (d : Word) : (s.issue d).params = s.params := rfl
@[simp] theorem State.issue_ie (s : State) (d : Word) : (s.issue d).ie = s.ie := rfl
@[simp] theorem State.issue_phase (s : State) (d : Word) : (s.issue d).phase = .busy := rfl
@[simp] theorem State.issue_done (s : State) (d : Word) : (s.issue d).done = false := rfl
@[simp] theorem State.issue_ovr (s : State) (d : Word) : (s.issue d).ovr = s.ovr := rfl
@[simp] theorem State.issue_err (s : State) (d : Word) : (s.issue d).err = .none := rfl
@[simp] theorem State.issue_cmd (s : State) (d : Word) : (s.issue d).cmd = d := rfl
@[simp] theorem State.issue_idx (s : State) (d : Word) : (s.issue d).idx = s.idx := rfl
@[simp] theorem State.issue_opa (s : State) (d : Word) : (s.issue d).opa = s.opa := rfl
@[simp] theorem State.issue_opb (s : State) (d : Word) : (s.issue d).opb = s.opb := rfl
@[simp] theorem State.issue_result (s : State) (d : Word) : (s.issue d).result = s.result := rfl
@[simp] theorem State.issue_datapath (s : State) (d : Word) : (s.issue d).datapath = none := rfl
@[simp] theorem State.issue_rstN (s : State) (d : Word) : (s.issue d).rstN = s.rstN := rfl
@[simp] theorem State.issue_inbox (s : State) (d : Word) : (s.issue d).inbox = s.inbox := rfl
@[simp] theorem State.issue_response (s : State) (d : Word) : (s.issue d).response = s.response := rfl

@[simp] theorem State.completeOk_params (s : State) (v : Nat) : (s.completeOk v).params = s.params := rfl
@[simp] theorem State.completeOk_ie (s : State) (v : Nat) : (s.completeOk v).ie = s.ie := rfl
@[simp] theorem State.completeOk_phase (s : State) (v : Nat) : (s.completeOk v).phase = .idle := rfl
@[simp] theorem State.completeOk_done (s : State) (v : Nat) : (s.completeOk v).done = true := rfl
@[simp] theorem State.completeOk_ovr (s : State) (v : Nat) : (s.completeOk v).ovr = s.ovr := rfl
@[simp] theorem State.completeOk_err (s : State) (v : Nat) : (s.completeOk v).err = .none := rfl
@[simp] theorem State.completeOk_cmd (s : State) (v : Nat) : (s.completeOk v).cmd = s.cmd := rfl
@[simp] theorem State.completeOk_idx (s : State) (v : Nat) : (s.completeOk v).idx = s.idx := rfl
@[simp] theorem State.completeOk_opa (s : State) (v : Nat) : (s.completeOk v).opa = s.opa := rfl
@[simp] theorem State.completeOk_opb (s : State) (v : Nat) : (s.completeOk v).opb = s.opb := rfl
@[simp] theorem State.completeOk_result (s : State) (v : Nat) : (s.completeOk v).result = wordsOf s.words v := rfl
@[simp] theorem State.completeOk_datapath (s : State) (v : Nat) : (s.completeOk v).datapath = none := rfl
@[simp] theorem State.completeOk_rstN (s : State) (v : Nat) : (s.completeOk v).rstN = s.rstN := rfl
@[simp] theorem State.completeOk_inbox (s : State) (v : Nat) : (s.completeOk v).inbox = s.inbox := rfl
@[simp] theorem State.completeOk_response (s : State) (v : Nat) : (s.completeOk v).response = s.response := rfl

@[simp] theorem State.completeErr_params (s : State) (c : CmdError) : (s.completeErr c).params = s.params := rfl
@[simp] theorem State.completeErr_ie (s : State) (c : CmdError) : (s.completeErr c).ie = s.ie := rfl
@[simp] theorem State.completeErr_phase (s : State) (c : CmdError) : (s.completeErr c).phase = .idle := rfl
@[simp] theorem State.completeErr_done (s : State) (c : CmdError) : (s.completeErr c).done = true := rfl
@[simp] theorem State.completeErr_ovr (s : State) (c : CmdError) : (s.completeErr c).ovr = s.ovr := rfl
@[simp] theorem State.completeErr_err (s : State) (c : CmdError) : (s.completeErr c).err = c.errCode := rfl
@[simp] theorem State.completeErr_cmd (s : State) (c : CmdError) : (s.completeErr c).cmd = s.cmd := rfl
@[simp] theorem State.completeErr_idx (s : State) (c : CmdError) : (s.completeErr c).idx = s.idx := rfl
@[simp] theorem State.completeErr_opa (s : State) (c : CmdError) : (s.completeErr c).opa = s.opa := rfl
@[simp] theorem State.completeErr_opb (s : State) (c : CmdError) : (s.completeErr c).opb = s.opb := rfl
@[simp] theorem State.completeErr_result (s : State) (c : CmdError) : (s.completeErr c).result = s.result := rfl
@[simp] theorem State.completeErr_datapath (s : State) (c : CmdError) : (s.completeErr c).datapath = none := rfl
@[simp] theorem State.completeErr_rstN (s : State) (c : CmdError) : (s.completeErr c).rstN = s.rstN := rfl
@[simp] theorem State.completeErr_inbox (s : State) (c : CmdError) : (s.completeErr c).inbox = s.inbox := rfl
@[simp] theorem State.completeErr_response (s : State) (c : CmdError) : (s.completeErr c).response = s.response := rfl

@[simp] theorem State.dropWrite_params (s : State) : s.dropWrite.params = s.params := rfl
@[simp] theorem State.dropWrite_ie (s : State) : s.dropWrite.ie = s.ie := rfl
@[simp] theorem State.dropWrite_phase (s : State) : s.dropWrite.phase = s.phase := rfl
@[simp] theorem State.dropWrite_done (s : State) : s.dropWrite.done = s.done := rfl
@[simp] theorem State.dropWrite_ovr (s : State) : s.dropWrite.ovr = true := rfl
@[simp] theorem State.dropWrite_err (s : State) : s.dropWrite.err = s.err := rfl
@[simp] theorem State.dropWrite_cmd (s : State) : s.dropWrite.cmd = s.cmd := rfl
@[simp] theorem State.dropWrite_idx (s : State) : s.dropWrite.idx = s.idx := rfl
@[simp] theorem State.dropWrite_opa (s : State) : s.dropWrite.opa = s.opa := rfl
@[simp] theorem State.dropWrite_opb (s : State) : s.dropWrite.opb = s.opb := rfl
@[simp] theorem State.dropWrite_result (s : State) : s.dropWrite.result = s.result := rfl
@[simp] theorem State.dropWrite_datapath (s : State) : s.dropWrite.datapath = s.datapath := rfl
@[simp] theorem State.dropWrite_rstN (s : State) : s.dropWrite.rstN = s.rstN := rfl
@[simp] theorem State.dropWrite_inbox (s : State) : s.dropWrite.inbox = s.inbox := rfl
@[simp] theorem State.dropWrite_response (s : State) : s.dropWrite.response = s.response := rfl

@[simp] theorem State.respond_params (s : State) (r : Response) : (s.respond r).params = s.params := rfl
@[simp] theorem State.respond_ie (s : State) (r : Response) : (s.respond r).ie = s.ie := rfl
@[simp] theorem State.respond_phase (s : State) (r : Response) : (s.respond r).phase = s.phase := rfl
@[simp] theorem State.respond_done (s : State) (r : Response) : (s.respond r).done = s.done := rfl
@[simp] theorem State.respond_ovr (s : State) (r : Response) : (s.respond r).ovr = s.ovr := rfl
@[simp] theorem State.respond_err (s : State) (r : Response) : (s.respond r).err = s.err := rfl
@[simp] theorem State.respond_cmd (s : State) (r : Response) : (s.respond r).cmd = s.cmd := rfl
@[simp] theorem State.respond_idx (s : State) (r : Response) : (s.respond r).idx = s.idx := rfl
@[simp] theorem State.respond_opa (s : State) (r : Response) : (s.respond r).opa = s.opa := rfl
@[simp] theorem State.respond_opb (s : State) (r : Response) : (s.respond r).opb = s.opb := rfl
@[simp] theorem State.respond_result (s : State) (r : Response) : (s.respond r).result = s.result := rfl
@[simp] theorem State.respond_datapath (s : State) (r : Response) : (s.respond r).datapath = s.datapath := rfl
@[simp] theorem State.respond_rstN (s : State) (r : Response) : (s.respond r).rstN = s.rstN := rfl
@[simp] theorem State.respond_inbox (s : State) (r : Response) : (s.respond r).inbox = s.inbox := rfl
@[simp] theorem State.respond_response (s : State) (r : Response) : (s.respond r).response = some r := rfl

@[simp] theorem State.ackStatus_params (s : State) (d : Word) : (s.ackStatus d).params = s.params := rfl
@[simp] theorem State.ackStatus_ie (s : State) (d : Word) : (s.ackStatus d).ie = s.ie := rfl
@[simp] theorem State.ackStatus_phase (s : State) (d : Word) : (s.ackStatus d).phase = s.phase := rfl
@[simp] theorem State.ackStatus_done (s : State) (d : Word) : (s.ackStatus d).done = (s.done && !d.getLsbD 1) := rfl
@[simp] theorem State.ackStatus_ovr (s : State) (d : Word) : (s.ackStatus d).ovr = (s.ovr && !d.getLsbD 2) := rfl
@[simp] theorem State.ackStatus_err (s : State) (d : Word) : (s.ackStatus d).err = s.err := rfl
@[simp] theorem State.ackStatus_cmd (s : State) (d : Word) : (s.ackStatus d).cmd = s.cmd := rfl
@[simp] theorem State.ackStatus_idx (s : State) (d : Word) : (s.ackStatus d).idx = s.idx := rfl
@[simp] theorem State.ackStatus_opa (s : State) (d : Word) : (s.ackStatus d).opa = s.opa := rfl
@[simp] theorem State.ackStatus_opb (s : State) (d : Word) : (s.ackStatus d).opb = s.opb := rfl
@[simp] theorem State.ackStatus_result (s : State) (d : Word) : (s.ackStatus d).result = s.result := rfl
@[simp] theorem State.ackStatus_datapath (s : State) (d : Word) : (s.ackStatus d).datapath = s.datapath := rfl
@[simp] theorem State.ackStatus_rstN (s : State) (d : Word) : (s.ackStatus d).rstN = s.rstN := rfl
@[simp] theorem State.ackStatus_inbox (s : State) (d : Word) : (s.ackStatus d).inbox = s.inbox := rfl
@[simp] theorem State.ackStatus_response (s : State) (d : Word) : (s.ackStatus d).response = s.response := rfl

@[simp] theorem State.resetRegisters_params (s : State) : s.resetRegisters.params = s.params := rfl
@[simp] theorem State.resetRegisters_ie (s : State) : s.resetRegisters.ie = false := rfl
@[simp] theorem State.resetRegisters_phase (s : State) : s.resetRegisters.phase = .idle := rfl
@[simp] theorem State.resetRegisters_done (s : State) : s.resetRegisters.done = false := rfl
@[simp] theorem State.resetRegisters_ovr (s : State) : s.resetRegisters.ovr = false := rfl
@[simp] theorem State.resetRegisters_err (s : State) : s.resetRegisters.err = .none := rfl
@[simp] theorem State.resetRegisters_cmd (s : State) : s.resetRegisters.cmd = 0#32 := rfl
@[simp] theorem State.resetRegisters_idx (s : State) : s.resetRegisters.idx = 0#32 := rfl
@[simp] theorem State.resetRegisters_opa (s : State) : s.resetRegisters.opa = List.replicate s.words 0#32 := rfl
@[simp] theorem State.resetRegisters_opb (s : State) : s.resetRegisters.opb = List.replicate s.words 0#32 := rfl
@[simp] theorem State.resetRegisters_result (s : State) : s.resetRegisters.result = List.replicate s.words 0#32 := rfl
@[simp] theorem State.resetRegisters_datapath (s : State) : s.resetRegisters.datapath = none := rfl
@[simp] theorem State.resetRegisters_rstN (s : State) : s.resetRegisters.rstN = s.rstN := rfl
@[simp] theorem State.resetRegisters_inbox (s : State) : s.resetRegisters.inbox = s.inbox := rfl
@[simp] theorem State.resetRegisters_response (s : State) : s.resetRegisters.response = s.response := rfl

@[simp] theorem State.fetched_params (s : State) (d : Word) : (s.fetched d).params = s.params := rfl
@[simp] theorem State.fetched_ie (s : State) (d : Word) : (s.fetched d).ie = s.ie := rfl
@[simp] theorem State.fetched_phase (s : State) (d : Word) : (s.fetched d).phase = .busy := rfl
@[simp] theorem State.fetched_done (s : State) (d : Word) : (s.fetched d).done = false := rfl
@[simp] theorem State.fetched_ovr (s : State) (d : Word) : (s.fetched d).ovr = s.ovr := rfl
@[simp] theorem State.fetched_err (s : State) (d : Word) : (s.fetched d).err = .none := rfl
@[simp] theorem State.fetched_cmd (s : State) (d : Word) : (s.fetched d).cmd = d := rfl
@[simp] theorem State.fetched_idx (s : State) (d : Word) : (s.fetched d).idx = s.idx := rfl
@[simp] theorem State.fetched_opa (s : State) (d : Word) : (s.fetched d).opa = s.opa := rfl
@[simp] theorem State.fetched_opb (s : State) (d : Word) : (s.fetched d).opb = s.opb := rfl
@[simp] theorem State.fetched_result (s : State) (d : Word) : (s.fetched d).result = s.result := rfl
@[simp] theorem State.fetched_datapath (s : State) (d : Word) : (s.fetched d).datapath = none := rfl
@[simp] theorem State.fetched_rstN (s : State) (d : Word) : (s.fetched d).rstN = true := rfl
@[simp] theorem State.fetched_inbox (s : State) (d : Word) : (s.fetched d).inbox = .complete :: s.inbox := rfl
@[simp] theorem State.fetched_response (s : State) (d : Word) : (s.fetched d).response = s.response := rfl

@[simp] theorem State.resetWith_params (p : Params) : (State.resetWith p).params = p := rfl
@[simp] theorem State.resetWith_ie (p : Params) : (State.resetWith p).ie = false := rfl
@[simp] theorem State.resetWith_phase (p : Params) : (State.resetWith p).phase = .idle := rfl
@[simp] theorem State.resetWith_done (p : Params) : (State.resetWith p).done = false := rfl
@[simp] theorem State.resetWith_ovr (p : Params) : (State.resetWith p).ovr = false := rfl
@[simp] theorem State.resetWith_err (p : Params) : (State.resetWith p).err = .none := rfl
@[simp] theorem State.resetWith_cmd (p : Params) : (State.resetWith p).cmd = 0#32 := rfl
@[simp] theorem State.resetWith_idx (p : Params) : (State.resetWith p).idx = 0#32 := rfl
@[simp] theorem State.resetWith_opa (p : Params) : (State.resetWith p).opa = List.replicate p.words 0#32 := rfl
@[simp] theorem State.resetWith_opb (p : Params) : (State.resetWith p).opb = List.replicate p.words 0#32 := rfl
@[simp] theorem State.resetWith_result (p : Params) : (State.resetWith p).result = List.replicate p.words 0#32 := rfl
@[simp] theorem State.resetWith_datapath (p : Params) : (State.resetWith p).datapath = none := rfl
@[simp] theorem State.resetWith_rstN (p : Params) : (State.resetWith p).rstN = true := rfl
@[simp] theorem State.resetWith_inbox (p : Params) : (State.resetWith p).inbox = [] := rfl
@[simp] theorem State.resetWith_response (p : Params) : (State.resetWith p).response = none := rfl

@[simp] theorem State.complete_ok (s : State) (v : Nat) : s.complete (.ok v) = s.completeOk v := rfl
@[simp] theorem State.complete_err (s : State) (c : CmdError) : s.complete (.err c) = s.completeErr c := rfl

theorem State.complete_phase (s : State) (a : Answer) : (s.complete a).phase = .idle := by cases a <;> rfl
theorem State.complete_done (s : State) (a : Answer) : (s.complete a).done = true := by cases a <;> rfl
theorem State.complete_datapath (s : State) (a : Answer) : (s.complete a).datapath = none := by cases a <;> rfl

/-- A completion leaves every field but RESULT, ERR, BUSY, DONE and the datapath as it was (R46). -/
theorem State.complete_frame (s : State) (a : Answer) :
    s.complete a =
      { s with result := (s.complete a).result, err := (s.complete a).err, phase := .idle, done := true, datapath := none } := by
  cases a <;> rfl

@[simp] theorem State.sampleRstN_high (s : State) : s.sampleRstN true = { s with rstN := true } := rfl
@[simp] theorem State.sampleRstN_low (s : State) : s.sampleRstN false = { s.resetRegisters with rstN := false } := rfl

@[simp] theorem State.writeUnlessBusy_idle {s : State} (t : State) (h : s.phase = .idle) : s.writeUnlessBusy t = t := by
  simp [State.writeUnlessBusy, h]
@[simp] theorem State.writeUnlessBusy_busy {s : State} (t : State) (h : s.phase = .busy) :
    s.writeUnlessBusy t = s.dropWrite := by
  simp [State.writeUnlessBusy, h]

@[simp] theorem State.writeCtrl_reset {s : State} {d : Word} (h : d.getLsbD 1 = true) :
    s.writeCtrl d = s.resetRegisters := by
  simp only [State.writeCtrl, h, if_true]
@[simp] theorem State.writeCtrl_enable {s : State} {d : Word} (h : d.getLsbD 1 = false) :
    s.writeCtrl d = { s with ie := d.getLsbD 0 } := by
  simp only [State.writeCtrl, h, Bool.false_eq_true, if_false]

/-- STATUS as read, field by field (R29). -/
theorem State.statusWord_fields (s : State) :
    s.statusWord.getLsbD 0 = s.busy ∧ s.statusWord.getLsbD 1 = s.done ∧ s.statusWord.getLsbD 2 = s.ovr ∧
    s.statusWord.getLsbD 3 = false ∧ s.statusWord.extractLsb' 4 4 = s.err.code ∧ s.statusWord.extractLsb' 8 24 = 0#24 := by
  unfold State.statusWord
  generalize s.busy = b
  generalize s.done = d
  generalize s.ovr = o
  cases s.err <;> cases b <;> cases d <;> cases o <;> decide

/-- CTRL as read, bit by bit (R36, R37). -/
theorem State.ctrlWord_getLsbD (s : State) (j : Nat) : s.ctrlWord.getLsbD j = (j == 0 && s.ie) := by
  unfold State.ctrlWord
  cases j with
  | zero => cases s.ie <;> decide
  | succ j => cases s.ie <;> simp

theorem ErrCode.code_none_iff (e : ErrCode) : e.code = 0#4 ↔ e = .none := by cases e <;> decide
theorem CmdError.errCode_ne_none (c : CmdError) : c.errCode ≠ .none := by cases c <;> decide

end Sys2Proof.Machine
end

