-- ==== Sys2Proof/Laws/Engine.lean ====
section
/-! SUPPORT. Every command completes with the answer of `answerOf`, and a completion event with the answer of `Execute`
(10_state.md R46). Later proofs cite these instead of unfolding the meanings. -/

namespace Sys2Proof.Machine

theorem exec_eq_complete (i : Instr) (s : State) :
    exec i s = .next (s.complete (answerOf i s.width s.opaValue s.opbValue s.ordinal)) := by
  cases i <;> rfl

theorem completeCommand_eq (s : State) :
    completeCommand s = .next (s.complete (execute s.cmd s.width s.opaValue s.opbValue s.ordinal)) := by
  unfold completeCommand execute
  split <;> rename_i h
  · exact exec_eq_complete _ s
  · rfl

theorem engineComplete_busy {s : State} (h : s.phase = .busy) :
    engineComplete s = .next (s.complete (execute s.cmd s.width s.opaValue s.opbValue s.ordinal)) := by
  simp [engineComplete, h, completeCommand_eq]

theorem engineComplete_idle {s : State} (h : s.phase = .idle) : engineComplete s = .next s := by
  simp [engineComplete, h]

/-- The checks, one lemma each: when they raise and when they pass (R202, R203). -/
theorem checkOrdinal_neg {b : Int} (h : b < 0) (k : Nat → Answer) : checkOrdinal b k = .err .invalidArgument := if_pos h
theorem checkOrdinal_nonneg {b : Int} (h : 0 ≤ b) (k : Nat → Answer) : checkOrdinal b k = k b.toNat := if_neg (by omega)
theorem checkGenerator_short {gen : Nat} (h : len gen < 2) (k : Answer) : checkGenerator gen k = .err .invalidArgument := if_pos h
theorem checkGenerator_ok {gen : Nat} (h : 2 ≤ len gen) (k : Answer) : checkGenerator gen k = k := if_neg (by omega)
@[simp] theorem checkWidth_true (k : Answer) : checkWidth true k = .err .widthOverflow := rfl
@[simp] theorem checkWidth_false (k : Answer) : checkWidth false k = k := rfl

/-- When both checks of PAD and ENCODE pass (R170, R171). -/
theorem padAllowed_iff (width a gen : Nat) :
    padAllowed width a gen = true ↔ 2 ≤ len gen ∧ (a = 0 ∨ len a + len gen - 1 ≤ width) := by
  simp only [padAllowed, padOverflows, Bool.and_eq_true, Bool.not_eq_true', Bool.and_eq_false_iff, decide_eq_true_eq,
    decide_eq_false_iff_not, len_pos_iff, not_not, not_lt]

/-- An internal step of the engine changes the datapath alone (R49). -/
theorem State.enginePass_frame (s : State) : s.enginePass = { s with datapath := s.enginePass.datapath } := by
  unfold State.enginePass
  split
  · rfl
  · split <;> rfl

end Sys2Proof.Machine
end

