-- ==== Sys2Proof/Laws/PerInstr.lean ====
section
/-! SUPPORT. Facts about every command as syntax, one lemma per constructor. -/

namespace Sys2Proof.Laws.EncodedWord

/-- The command word of `i` is a valid one, with MBZ = 0 and the opcode of `i` in OP (30_encoding.md R80, R81). -/
def Statement (i : Sys2Proof.Instr) : Prop :=
  Sys2Proof.validWord (Sys2Proof.encode i) = true ∧ Sys2Proof.mbzField (Sys2Proof.encode i) = 0#28 ∧
  Sys2Proof.opField (Sys2Proof.encode i) = i.opcode

theorem getBit : Statement .getBit := ⟨by decide, by decide, by decide⟩
theorem setBit : Statement .setBit := ⟨by decide, by decide, by decide⟩
theorem clearBit : Statement .clearBit := ⟨by decide, by decide, by decide⟩
theorem shiftIn : Statement .shiftIn := ⟨by decide, by decide, by decide⟩
theorem xorIfMsbSet : Statement .xorIfMsbSet := ⟨by decide, by decide, by decide⟩
theorem remainder : Statement .remainder := ⟨by decide, by decide, by decide⟩
theorem pad : Statement .pad := ⟨by decide, by decide, by decide⟩
theorem encode : Statement .encode := ⟨by decide, by decide, by decide⟩
theorem decode : Statement .decode := ⟨by decide, by decide, by decide⟩

end Sys2Proof.Laws.EncodedWord
end

