-- ==== Sys2Proof/Laws/Port.lean ====
section
/-! SUPPORT. The port: where each register lies, and everything `serve` can answer (20_memory.md R61 to R63, R206). -/

namespace Sys2Proof.Machine

theorem slotWord_eq_some {n slot off : Nat} {f : Nat → Reg} {r : Reg} (h : slotWord n slot off f = some r) :
    slot ≤ off ∧ off < slot + 4 * n ∧ r = f ((off - slot) / 4) := by
  unfold slotWord at h
  split at h
  · rename_i hc
    cases h
    exact ⟨hc.1, hc.2, rfl⟩
  · cases h

theorem slotWord_word {n k : Nat} (slot : Nat) (f : Nat → Reg) (h : k < n) :
    slotWord n slot (slot + 4 * k) f = some (f k) := by
  unfold slotWord
  rw [if_pos (by omega)]
  congr 2; omega

/-- What `regAt` finds at an aligned offset lies at that offset and is there (R20). -/
theorem regAt_eq_some {n off : Nat} {r : Reg} (ha : off % 4 = 0) (h : regAt n off = some r) :
    off = r.offset ∧ r.present n = true := by
  unfold regAt at h
  split at h
  · cases h; exact ⟨by assumption, rfl⟩
  split at h
  · cases h; exact ⟨by assumption, rfl⟩
  split at h
  · cases h; exact ⟨by assumption, rfl⟩
  split at h
  · cases h; exact ⟨by assumption, rfl⟩
  split at h
  · cases h; exact ⟨by assumption, rfl⟩
  split at h
  · cases h; exact ⟨by assumption, rfl⟩
  split at h
  · obtain ⟨h1, h2, rfl⟩ := slotWord_eq_some h
    simp only [Reg.offset, Reg.present, decide_eq_true_eq]; omega
  split at h
  · obtain ⟨h1, h2, rfl⟩ := slotWord_eq_some h
    simp only [Reg.offset, Reg.present, decide_eq_true_eq]; omega
  · obtain ⟨h1, h2, rfl⟩ := slotWord_eq_some h
    simp only [Reg.offset, Reg.present, decide_eq_true_eq]; omega

/-- `regAt` finds every register of the block at its offset (R20); no wide register has more than 64 words (R7). -/
theorem regAt_offset {n : Nat} (hn : n ≤ 64) {r : Reg} (h : r.present n = true) : regAt n r.offset = some r := by
  cases r with
  | opa k =>
    have hk : k < n := by simpa [Reg.present] using h
    rw [show (Reg.opa k).offset = 0x100 + 4 * k from rfl]
    unfold regAt
    iterate 6 rw [if_neg (by omega)]
    rw [if_pos (by omega)]
    exact slotWord_word 0x100 Reg.opa hk
  | opb k =>
    have hk : k < n := by simpa [Reg.present] using h
    rw [show (Reg.opb k).offset = 0x200 + 4 * k from rfl]
    unfold regAt
    iterate 7 rw [if_neg (by omega)]
    rw [if_pos (by omega)]
    exact slotWord_word 0x200 Reg.opb hk
  | result k =>
    have hk : k < n := by simpa [Reg.present] using h
    rw [show (Reg.result k).offset = 0x300 + 4 * k from rfl]
    unfold regAt
    iterate 8 rw [if_neg (by omega)]
    exact slotWord_word 0x300 Reg.result hk
  | _ => rfl

/-- The offset of every register of the block is a mapped one, and every mapped offset is one (R61). -/
theorem mappedOffset_iff {n off : Nat} : MappedOffset n off ↔ ∃ r : Reg, r.present n = true ∧ off = r.offset := by
  constructor
  · rintro (⟨j, hj, rfl⟩ | ⟨k, hk, rfl | rfl | rfl⟩)
    · have : j = 0 ∨ j = 1 ∨ j = 2 ∨ j = 3 ∨ j = 4 ∨ j = 5 := by omega
      rcases this with rfl | rfl | rfl | rfl | rfl | rfl
      exacts [⟨.id, rfl, rfl⟩, ⟨.param, rfl, rfl⟩, ⟨.ctrl, rfl, rfl⟩, ⟨.status, rfl, rfl⟩, ⟨.cmd, rfl, rfl⟩, ⟨.idx, rfl, rfl⟩]
    · exact ⟨.opa k, by simpa [Reg.present] using hk, rfl⟩
    · exact ⟨.opb k, by simpa [Reg.present] using hk, rfl⟩
    · exact ⟨.result k, by simpa [Reg.present] using hk, rfl⟩
  · rintro ⟨r, hr, rfl⟩
    cases r with
    | id => exact .inl ⟨0, by omega, rfl⟩
    | param => exact .inl ⟨1, by omega, rfl⟩
    | ctrl => exact .inl ⟨2, by omega, rfl⟩
    | status => exact .inl ⟨3, by omega, rfl⟩
    | cmd => exact .inl ⟨4, by omega, rfl⟩
    | idx => exact .inl ⟨5, by omega, rfl⟩
    | opa k => exact .inr ⟨k, by simpa [Reg.present] using hr, .inl rfl⟩
    | opb k => exact .inr ⟨k, by simpa [Reg.present] using hr, .inr (.inl rfl)⟩
    | result k => exact .inr ⟨k, by simpa [Reg.present] using hr, .inr (.inr rfl)⟩

theorem Reg.offset_mod_four (r : Reg) : r.offset % 4 = 0 := by cases r <;> simp only [Reg.offset] <;> omega

theorem Reg.offset_lt {n : Nat} (hn : n ≤ 64) {r : Reg} (h : r.present n = true) : r.offset < 0x400 := by
  cases r <;> simp_all only [Reg.offset, Reg.present, decide_eq_true_eq] <;> omega

theorem State.Wf.words_le {s : State} (h : s.Wf) : s.words ≤ 64 := by
  have := (Params.wf_iff s.params).1 h.1
  simp only [State.words, Params.words]; omega

/-- Everything an access that is served does: it was routed here, `rst_n` was high, it came through device memory, it was 32 bits wide,
aligned and mapped, and it was performed on the register at its offset (R62, R63, R245). -/
theorem serve_next_cases {a : Access} {s t : State} (h : serve a s = .next t) :
    inWindow s a.addr = true ∧ s.rstN = true ∧ a.mapping = .device ∧ a.bits = 32 ∧ offsetOf a.addr % 4 = 0 ∧
    ∃ r, regAt s.words (offsetOf a.addr) = some r ∧ t = perform s r a.op := by
  unfold serve at h
  iterate 5
    split at h
    · cases h
  split at h
  · cases h
  · rename_i h1 h2 h3 h4 h5 _ r hr
    cases h
    exact ⟨by simpa using h1, by simpa using h2, by simpa using h3, by simpa using h4, by simpa using h5, r, hr, rfl⟩

/-- An access that passes every check is performed (R62, R63). -/
theorem serve_next {a : Access} {s : State} {r : Reg} (hw : inWindow s a.addr = true) (hr : s.rstN = true)
    (hd : a.mapping = .device) (hb : a.bits = 32) (ha : offsetOf a.addr % 4 = 0) (hm : regAt s.words (offsetOf a.addr) = some r) :
    serve a s = .next (perform s r a.op) := by
  simp [serve, hw, hr, hd, hb, ha, hm]

/-- The offset of an address of the window of a legal BASE (R8, R61). -/
theorem offsetOf_base_add {base off : Nat} (hb : base % 0x400 = 0) (ho : off < 0x400) : offsetOf (base + off) = off := by
  simp only [offsetOf, Config.windowBytes]; omega

/-- What a host write does to CTRL.IE (R36, R37). -/
theorem writeReg_ie (s : State) (d : Word) (r : Reg) : (writeReg s d r).ie =
    match r with
    | .ctrl => if d.getLsbD 1 then false else d.getLsbD 0
    | _ => s.ie := by
  cases r with
  | ctrl => simp only [writeReg, State.writeCtrl]; split <;> rfl
  | id | param | status | result => rfl
  | idx | opa | opb | cmd => cases hp : s.phase <;> simp [writeReg, State.writeUnlessBusy, hp]

/-- What a host write does to STATUS.DONE (R31). -/
theorem writeReg_done (s : State) (d : Word) (r : Reg) : (writeReg s d r).done =
    match r with
    | .status => s.done && !d.getLsbD 1
    | .ctrl => if d.getLsbD 1 then false else s.done
    | .cmd => if s.phase = .idle then false else s.done
    | _ => s.done := by
  cases r with
  | ctrl => simp only [writeReg, State.writeCtrl]; split <;> rfl
  | id | param | status | result => rfl
  | idx | opa | opb | cmd => cases hp : s.phase <;> simp [writeReg, State.writeUnlessBusy, hp]

/-- What a host write does to STATUS.OVR (R32). -/
theorem writeReg_ovr (s : State) (d : Word) (r : Reg) : (writeReg s d r).ovr =
    match r with
    | .status => s.ovr && !d.getLsbD 2
    | .ctrl => if d.getLsbD 1 then false else s.ovr
    | .cmd | .idx | .opa _ | .opb _ => if s.phase = .idle then s.ovr else true
    | _ => s.ovr := by
  cases r with
  | ctrl => simp only [writeReg, State.writeCtrl]; split <;> rfl
  | id | param | status | result => rfl
  | idx | opa | opb | cmd => cases hp : s.phase <;> simp [writeReg, State.writeUnlessBusy, hp]

end Sys2Proof.Machine
end

