-- ==== Sys2Proof/Laws/Remainder.lean ====
section
/-! SUPPORT. The datapath, field by field (41_remainder.md R142 to R144, R152). -/

namespace Sys2Proof.Machine

@[simp] theorem Datapath.seed_g (a gen : Nat) : (Datapath.seed a gen).g = len gen := rfl
@[simp] theorem Datapath.seed_s (a gen : Nat) : (Datapath.seed a gen).s = len a := rfl

/-- The counter of the seed is one less than the dividend bits left (R142). -/
theorem Datapath.seed_shift (a gen : Nat) : (Datapath.seed a gen).shift = ((len a - len gen : Nat) : Int) - 1 := by
  simp only [Datapath.seed]; omega

theorem Datapath.seed_reg (a gen : Nat) : (Datapath.seed a gen).reg = a >>> (len a - len gen) := by
  simp only [Datapath.seed]
  split <;> rename_i h
  · congr 1; omega
  · rw [show len a - len gen = 0 by omega]; rfl

@[simp] theorem Datapath.pass_g (a gen : Nat) (d : Datapath) : (d.pass a gen).g = d.g := rfl
@[simp] theorem Datapath.pass_s (a gen : Nat) (d : Datapath) : (d.pass a gen).s = d.s := rfl
@[simp] theorem Datapath.pass_shift (a gen : Nat) (d : Datapath) : (d.pass a gen).shift = d.shift - 1 := rfl

/-- With no dividend bit left the loop does not run (R142, R143). -/
theorem Datapath.loop_of_neg (a gen n : Nat) {d : Datapath} (h : d.shift < 0) : Datapath.loop a gen n d = d := by
  cases n with
  | zero => rfl
  | succ n => simp only [Datapath.loop]; rw [if_neg (by omega)]

theorem Datapath.loop_of_nonneg (a gen n : Nat) {d : Datapath} (h : 0 ≤ d.shift) :
    Datapath.loop a gen (n + 1) d = Datapath.loop a gen n (d.pass a gen) := by
  simp only [Datapath.loop]; rw [if_pos h]

@[simp] theorem Datapath.loop_g (a gen n : Nat) (d : Datapath) : (Datapath.loop a gen n d).g = d.g := by
  induction n generalizing d with
  | zero => rfl
  | succ n ih =>
    simp only [Datapath.loop]
    split
    · rw [ih, Datapath.pass_g]
    · rfl

/-- A pass made early is a pass that finishing need not make: the answer is the same (R143, R144). -/
theorem Datapath.finish_pass (a gen : Nat) {d : Datapath} (h : 0 ≤ d.shift) :
    (d.pass a gen).finish a gen = d.finish a gen := by
  have e : d.passesLeft = (d.pass a gen).passesLeft + 1 := by
    simp only [Datapath.passesLeft, Datapath.pass_shift]; omega
  simp only [Datapath.finish, e, Datapath.loop_of_nonneg a gen _ h, Datapath.pass_g]

@[simp] theorem datapathAfter_g (a gen n : Nat) : (datapathAfter a gen n).g = len gen := by
  induction n with
  | zero => rfl
  | succ n ih => simp [datapathAfter, ih]

theorem datapathAfter_shift (a gen n : Nat) :
    (datapathAfter a gen n).shift = ((len a - len gen : Nat) : Int) - 1 - n := by
  induction n with
  | zero => simp [datapathAfter, Datapath.seed_shift]
  | succ n ih => simp [datapathAfter, ih]; omega

theorem clmul_zero (g : Nat) : clmul 0 g = 0 := rfl

/-- The product over GF(2) is linear in its first factor (R15). -/
theorem clmulUpTo_xor (p q g n : Nat) : clmulUpTo (p ^^^ q) g n = clmulUpTo p g n ^^^ clmulUpTo q g n := by
  induction n with
  | zero => simp [clmulUpTo]
  | succ n ih =>
    simp only [clmulUpTo, Nat.testBit_xor, ih]
    apply Nat.eq_of_testBit_eq
    intro j
    cases p.testBit n <;> cases q.testBit n <;> simp only [Nat.testBit_xor, Bool.true_bne, Bool.false_bne, Bool.not_true, Bool.not_false, if_true, if_false, Bool.false_eq_true] <;>
      cases (clmulUpTo p g n).testBit j <;> cases (clmulUpTo q g n).testBit j <;> cases (g <<< n).testBit j <;> rfl

theorem clmulUpTo_of_len_le {q g n : Nat} (h : len q ≤ n) : clmulUpTo q g n = clmul q g := by
  induction n, h using Nat.le_induction with
  | base => rfl
  | succ n hn ih => simp only [clmulUpTo, testBit_of_len_le hn, ih]; simp

theorem clmul_xor (p q g : Nat) : clmul (p ^^^ q) g = clmul p g ^^^ clmul q g := by
  rw [← clmulUpTo_of_len_le (q := p ^^^ q) (n := max (max (len p) (len q)) (len (p ^^^ q))) (by omega), clmulUpTo_xor,
    clmulUpTo_of_len_le (by omega), clmulUpTo_of_len_le (by omega)]

theorem clmul_one (g : Nat) : clmul 1 g = g := by
  show clmulUpTo 1 g 1 = g
  simp [clmulUpTo]

end Sys2Proof.Machine
end

