-- ==== Sys2Proof/Laws/Step.lean ====
section
/-! SUPPORT. Everything one step can do when it answers a next state. -/

namespace Sys2Proof.Machine

theorem Phase.idle_or_busy (p : Phase) : p = .idle ∨ p = .busy := by cases p <;> simp

theorem State.inbox_tail_of_nil {s : State} (h : s.inbox = []) : { s with inbox := s.inbox.tail } = s := by
  cases s; simp_all

/-- The cases of a step that goes on: a completion, an idle wait, an access that is served, an internal step of the engine, or a
level of `rst_n`. -/
theorem step_next_cases {s t : State} (h : step s = .next t) :
    (IsCompletion s ∧ t = State.complete { s with inbox := s.inbox.tail }
        (execute s.cmd s.width s.opaValue s.opbValue s.ordinal)) ∨
    (s.phase = .idle ∧ (s.inbox = [] ∨ ∃ rest, s.inbox = .complete :: rest) ∧ t = { s with inbox := s.inbox.tail }) ∨
    (∃ a rest, s.inbox = .access a :: rest ∧ serve a { s with inbox := rest } = .next t) ∨
    (∃ rest, s.inbox = .pass :: rest ∧ t = State.enginePass { s with inbox := rest }) ∨
    (∃ level rest, s.inbox = .rstN level :: rest ∧ t = State.sampleRstN { s with inbox := rest } level) := by
  unfold step at h
  split at h <;> rename_i hi
  · rw [State.inbox_tail_of_nil hi]
    rcases s.phase.idle_or_busy with hp | hp
    · rw [engineComplete_idle hp] at h
      cases h
      exact .inr (.inl ⟨hp, .inl hi, rfl⟩)
    · rw [engineComplete_busy hp] at h
      cases h
      exact .inl ⟨⟨hp, .inl hi⟩, rfl⟩
  · exact .inr (.inr (.inl ⟨_, _, hi, h⟩))
  · cases h; exact .inr (.inr (.inr (.inl ⟨_, hi, rfl⟩)))
  · rcases s.phase.idle_or_busy with hp | hp
    · rw [engineComplete_idle (by exact hp)] at h
      cases h
      exact .inr (.inl ⟨hp, .inr ⟨_, hi⟩, by rw [hi]; rfl⟩)
    · rw [engineComplete_busy (by exact hp)] at h
      cases h
      exact .inl ⟨⟨hp, .inr ⟨_, hi⟩⟩, by rw [hi]; rfl⟩
  · cases h; exact .inr (.inr (.inr (.inr ⟨_, _, hi, rfl⟩)))

/-- A completion event of a busy engine completes with `Execute`'s answer on the registers as they stand (R46). -/
theorem step_complete_busy {s : State} {rest : List Event} (hp : s.phase = .busy) (hi : s.inbox = .complete :: rest) :
    step s = .next (State.complete { s with inbox := rest }
      (execute s.cmd s.width s.opaValue s.opbValue s.ordinal)) := by
  unfold step
  rw [hi]
  exact engineComplete_busy (s := { s with inbox := rest }) hp

/-- The step that `withFetchWord` prepares is the completion of the word it put in CMD. -/
theorem step_withFetchWord (s : State) (nbits w : Nat) :
    step (s.withFetchWord nbits w) = engineComplete { s.issue (tableWord nbits w) with rstN := true } := rfl

/-- A 32-bit write to a mapped offset is performed (R68). -/
theorem step_of_nextWrite {s : State} {off : Nat} {d : Word} {rest : List Event} {r : Reg} (hs : s.Wf)
    (h : NextWrite s off d rest) (ha : off % 4 = 0) (hr : regAt s.words off = some r) :
    step s = .next (perform { s with inbox := rest } r (.write d)) := by
  obtain ⟨h1, h2, h3⟩ := h
  have hb := ((Params.wf_iff s.params).1 hs.1).2.2.2
  have ho := offsetOf_base_add hb (off := off) h2
  have hw : inWindow s (s.params.base + off) = true := by simp [inWindow]; exact h2
  unfold step
  rw [h3]
  exact serve_next (r := r) hw h1 rfl rfl (by rw [ho]; exact ha) (by rw [ho]; exact hr)

/-- A 32-bit read of a mapped offset is performed (R67). -/
theorem step_of_nextRead {s : State} {off : Nat} {rest : List Event} {r : Reg} (hs : s.Wf)
    (h : NextRead s off rest) (ha : off % 4 = 0) (hr : regAt s.words off = some r) :
    step s = .next (perform { s with inbox := rest } r .read) := by
  obtain ⟨h1, h2, h3⟩ := h
  have hb := ((Params.wf_iff s.params).1 hs.1).2.2.2
  have ho := offsetOf_base_add hb (off := off) h2
  have hw : inWindow s (s.params.base + off) = true := by simp [inWindow]; exact h2
  unfold step
  rw [h3]
  exact serve_next (r := r) hw h1 rfl rfl (by rw [ho]; exact ha) (by rw [ho]; exact hr)

/-- An access that is served is a read or a write at the offset of a register of the block, and it was performed there (R62, R68). -/
theorem serve_cases {s t : State} {a : Access} {rest : List Event} (hs : s.Wf) (hi : s.inbox = .access a :: rest)
    (h : serve a { s with inbox := rest } = .next t) :
    ∃ r : Reg, r.present s.words = true ∧
      ((NextRead s r.offset rest ∧ t = State.respond { s with inbox := rest } (.data (readReg s r))) ∨
       ∃ d, NextWrite s r.offset d rest ∧ t = (writeReg { s with inbox := rest } d r).respond .ack) := by
  obtain ⟨hw, hr, hd, hb, ha, r, hm, ht⟩ := serve_next_cases h
  obtain ⟨ho, hp⟩ := regAt_eq_some ha hm
  have hbase := ((Params.wf_iff s.params).1 hs.1).2.2.2
  have haddr : a.addr = s.params.base + r.offset := by
    replace hw : inWindow s a.addr = true := hw
    rw [inWindow, Bool.and_eq_true, decide_eq_true_eq, decide_eq_true_eq, Config.windowBytes] at hw
    simp only [offsetOf, Config.windowBytes] at ho
    omega
  have hlt : r.offset < Config.windowBytes := Reg.offset_lt hs.words_le hp
  refine ⟨r, hp, ?_⟩
  obtain ⟨addr, bits, op, mapping⟩ := a
  cases op with
  | read => exact .inl ⟨⟨hr, hlt, by simp_all⟩, by rw [ht]; cases r <;> rfl⟩
  | write d => exact .inr ⟨d, ⟨hr, hlt, by simp_all⟩, ht⟩

/-- A write at the offset of a register of the block is performed on it (R68). -/
theorem step_nextWrite {s : State} {d : Word} {rest : List Event} {r : Reg} (hs : s.Wf) (hp : r.present s.words = true)
    (h : NextWrite s r.offset d rest) : step s = .next ((writeReg { s with inbox := rest } d r).respond .ack) :=
  step_of_nextWrite hs h r.offset_mod_four (regAt_offset hs.words_le hp)

/-- A read at the offset of a register of the block answers its word and changes nothing else (R67). -/
theorem step_nextRead {s : State} {rest : List Event} {r : Reg} (hs : s.Wf) (hp : r.present s.words = true)
    (h : NextRead s r.offset rest) : step s = .next (State.respond { s with inbox := rest } (.data (readReg s r))) := by
  rw [step_of_nextRead hs h r.offset_mod_four (regAt_offset hs.words_le hp)]
  cases r <;> rfl

/-- One offset is the offset of one register of the block. -/
theorem Reg.offset_injective {n : Nat} (hn : n ≤ 64) {r r' : Reg} (h : r.present n = true) (h' : r'.present n = true)
    (e : r.offset = r'.offset) : r = r' := by
  have h1 := regAt_offset hn h
  rw [e, regAt_offset hn h'] at h1
  exact (Option.some.inj h1).symm

/-- One input is one write. -/
theorem NextWrite.unique {s : State} {off off' : Nat} {d d' : Word} {rest rest' : List Event}
    (h : NextWrite s off d rest) (h' : NextWrite s off' d' rest') : off = off' ∧ d = d' ∧ rest = rest' := by
  have e := h.2.2.symm.trans h'.2.2
  simp at e
  exact ⟨e.1.1, e.1.2, e.2⟩

/-- One input is not a write and a read. -/
theorem NextWrite.not_nextRead {s : State} {off off' : Nat} {d : Word} {rest rest' : List Event}
    (h : NextWrite s off d rest) : ¬ NextRead s off' rest' := by
  intro h'
  have e := h.2.2.symm.trans h'.2.2
  simp at e

/-- The cases of a step that goes on, as far as the registers are concerned: a completion; a step that changes none of them; a
reset by `rst_n`; or a host write of a register of the block. -/
theorem step_register_cases {s t : State} (hI : s.Inv) (h : step s = .next t) :
    (IsCompletion s ∧ (∀ off d rest, ¬ NextWrite s off d rest) ∧ (∀ rest, s.inbox ≠ .rstN false :: rest) ∧
      t = State.complete { s with inbox := s.inbox.tail } (execute s.cmd s.width s.opaValue s.opbValue s.ordinal)) ∨
    (¬ IsCompletion s ∧ (∀ off d rest, ¬ NextWrite s off d rest) ∧ (∀ rest, s.inbox ≠ .rstN false :: rest) ∧
      ∃ inbox response datapath rstN,
        t = { s with inbox := inbox, response := response, datapath := datapath, rstN := rstN }) ∨
    (¬ IsCompletion s ∧ (∀ off d rest, ¬ NextWrite s off d rest) ∧
      ∃ rest, s.inbox = .rstN false :: rest ∧ t = { s.resetRegisters with rstN := false, inbox := rest }) ∨
    (¬ IsCompletion s ∧ (∀ rest, s.inbox ≠ .rstN false :: rest) ∧
      ∃ (r : Reg) (d : Word) (rest : List Event), r.present s.words = true ∧ NextWrite s r.offset d rest ∧
        t = (writeReg { s with inbox := rest } d r).respond .ack) := by
  have notWrite : ∀ e : List Event, s.inbox = e → (∀ a rest, e ≠ .access a :: rest) →
      ∀ off d rest, ¬ NextWrite s off d rest := fun e he hc off d rest hw => hc _ _ (he.symm.trans hw.2.2)
  rcases step_next_cases h with ⟨⟨hp, hi⟩, ht⟩ | ⟨hp, hi, ht⟩ | ⟨a, rest, hi, hsv⟩ | ⟨rest, hi, ht⟩ | ⟨level, rest, hi, ht⟩
  · refine .inl ⟨⟨hp, hi⟩, notWrite _ rfl ?_, ?_, ht⟩
    · intro a rest hc; rcases hi with hi | ⟨_, hi⟩ <;> rw [hi] at hc <;> cases hc
    · intro rest hc; rcases hi with hi | ⟨_, hi⟩ <;> rw [hi] at hc <;> cases hc
  · refine .inr (.inl ⟨?_, notWrite _ rfl ?_, ?_, _, _, _, _, ht⟩)
    · rintro ⟨hc, -⟩; rw [hp] at hc; cases hc
    · intro a rest hc; rcases hi with hi | ⟨_, hi⟩ <;> rw [hi] at hc <;> cases hc
    · intro rest hc; rcases hi with hi | ⟨_, hi⟩ <;> rw [hi] at hc <;> cases hc
  · have nc : ¬ IsCompletion s := by rintro ⟨-, hc | ⟨_, hc⟩⟩ <;> rw [hi] at hc <;> cases hc
    have nr : ∀ rest, s.inbox ≠ .rstN false :: rest := by intro r hc; rw [hi] at hc; cases hc
    obtain ⟨r, hr, ⟨hn, ht⟩ | ⟨d, hn, ht⟩⟩ := serve_cases hI.1 hi hsv
    · exact .inr (.inl ⟨nc, fun off d rest hw => hw.not_nextRead hn, nr, _, _, _, _, ht⟩)
    · exact .inr (.inr (.inr ⟨nc, nr, r, d, rest, hr, hn, ht⟩))
  · have nc : ¬ IsCompletion s := by rintro ⟨-, hc | ⟨_, hc⟩⟩ <;> rw [hi] at hc <;> cases hc
    refine .inr (.inl ⟨nc, notWrite _ hi (by intro _ _ hc; cases hc), ?_, _, _, _, _,
      ht.trans (State.enginePass_frame _)⟩)
    intro r hc; rw [hi] at hc; cases hc
  · have nc : ¬ IsCompletion s := by rintro ⟨-, hc | ⟨_, hc⟩⟩ <;> rw [hi] at hc <;> cases hc
    have nw := notWrite _ hi (by intro _ _ hc; cases hc)
    cases level
    · exact .inr (.inr (.inl ⟨nc, nw, rest, hi, ht⟩))
    · exact .inr (.inl ⟨nc, nw, (by intro r hc; rw [hi] at hc; cases hc), _, _, _, _, ht⟩)

theorem core_run_next (M : Host.Core) {n : Nat} {s t : M.State} (h : M.step s = .next t) : M.run (n + 1) s = M.run n t := by
  rw [Host.Core.run, h]

theorem core_run_cases (M : Host.Core) {n : Nat} {s t : M.State} (h : M.run (n + 1) s = .next t) :
    ∃ u, M.step s = .next u ∧ M.run n u = .next t := by
  rw [Host.Core.run] at h
  cases hs : M.step s with
  | next u => rw [hs] at h; exact ⟨u, rfl, h⟩
  | fault r => rw [hs] at h; cases h
  | refused r => rw [hs] at h; cases h

/-- A run whose first step goes on is the run from there. -/
theorem run_next {n : Nat} {s t : State} (h : step s = .next t) :
    Host.Core.run Sys2Proof.core (n + 1) s = Host.Core.run Sys2Proof.core n t := core_run_next Sys2Proof.core h

/-- The first step of a run that goes on. -/
theorem run_cases {n : Nat} {s t : State} (h : Host.Core.run Sys2Proof.core (n + 1) s = .next t) :
    ∃ u, step s = .next u ∧ Host.Core.run Sys2Proof.core n u = .next t := core_run_cases Sys2Proof.core h

end Sys2Proof.Machine
end

