-- ==== Sys2Proof/Tests/Slice0.lean ====
section
/-! SUPPORT. Small tests of the model: what the checks refuse, words written out from the spec's encodings (30_encoding.md R80,
R82), one step of each command on operands of 95_test_vectors.md, a few accesses of its section 3, and for each obligation
with hypotheses a state and operands that meet them. -/

namespace Sys2Proof.Tests

open Sys2Proof.Machine

/-! ## What the checks refuse (R7, R8, R81, R89) -/

theorem test_wf_reference : Config.referenceParams.wf = true := by decide
theorem test_wf_narrowest : (Params.mk 64 0x400).wf = true := by decide
theorem test_wf_widest : (Params.mk 2048 0x400).wf = true := by decide
theorem test_wf_width_not_words : (Params.mk 100 0).wf = false := by decide
theorem test_wf_width_too_narrow : (Params.mk 32 0).wf = false := by decide
theorem test_wf_width_too_wide : (Params.mk 2080 0).wf = false := by decide
theorem test_wf_base_unaligned : (Params.mk 128 0x200).wf = false := by decide
theorem test_word_zero_invalid : validWord 0x00000000#32 = false := by decide
theorem test_word_op_a_invalid : validWord 0x0000000A#32 = false := by decide
theorem test_word_mbz_invalid : validWord 0x00000011#32 = false := by decide
theorem test_word_nine_valid : validWord 0x00000009#32 = true := by decide
theorem test_wrw_too_wide : (ScriptOp.wrw .opa (2 ^ 128)).wf Config.referenceParams = false := by decide
theorem test_setIdx_too_big : (ScriptOp.setIdx (2 ^ 31)).wf Config.referenceParams = false := by decide

/-! ## Words of the opcode map, MBZ then OP, bit by bit (R80, R82), and reserved words by name (R83) -/

theorem test_decode_getBit : decode (0b0000000000000000000000000000#28 ++ 0b0001#4) = .ok .getBit := rfl
theorem test_decode_setBit : decode (0b0000000000000000000000000000#28 ++ 0b0010#4) = .ok .setBit := rfl
theorem test_decode_clearBit : decode (0b0000000000000000000000000000#28 ++ 0b0011#4) = .ok .clearBit := rfl
theorem test_decode_shiftIn : decode (0b0000000000000000000000000000#28 ++ 0b0100#4) = .ok .shiftIn := rfl
theorem test_decode_xorIfMsbSet : decode (0b0000000000000000000000000000#28 ++ 0b0101#4) = .ok .xorIfMsbSet := rfl
theorem test_decode_remainder : decode (0b0000000000000000000000000000#28 ++ 0b0110#4) = .ok .remainder := rfl
theorem test_decode_pad : decode (0b0000000000000000000000000000#28 ++ 0b0111#4) = .ok .pad := rfl
theorem test_decode_encode : decode (0b0000000000000000000000000000#28 ++ 0b1000#4) = .ok .encode := rfl
theorem test_decode_decode : decode (0b0000000000000000000000000000#28 ++ 0b1001#4) = .ok .decode := rfl
theorem test_decode_zero : decode 0x00000000#32 = .error .reservedOpcode := rfl
theorem test_decode_op_f : decode 0x0000000F#32 = .error .reservedOpcode := rfl
theorem test_decode_mbz : decode 0x80000001#32 = .error .mbzNotZero := rfl
theorem test_decodeTableWord : decodeTableWord 32 0x00000008 = some .encode := by decide
theorem test_encode_word : encode .shiftIn = 0x00000004#32 := by decide

/-! ## One command each (95_test_vectors.md sections 2.1 to 2.9; W = 128) -/

/-- The block with these operands and nothing to come. -/
def operands (opa opb : List Word) (idx : Word) : State := { State.reset with opa := opa, opb := opb, idx := idx }

/-- ERR and the words of RESULT after one step of the command word `w`. -/
def outcome (s : State) (w : Nat) : Option (ErrCode × List Word) :=
  match step (s.withFetchWord 32 w) with
  | .next t => some (t.err, t.result)
  | .fault _ => none
  | .refused _ => none

/-- 2.1 row 7: b = W - 1. -/
theorem test_getBit_top : outcome (operands [0, 0, 0, 0x80000000] [0, 0, 0, 0] 0x7F) 1 = some (.none, [1, 0, 0, 0]) := by decide
/-- 2.1 row 8: b = -1. -/
theorem test_getBit_negative : outcome (operands [0xB, 0, 0, 0] [0, 0, 0, 0] 0xFFFFFFFF) 1 = some (.invalidArgument, [0, 0, 0, 0]) := by decide
/-- 2.2 row 4: b = W - 1. -/
theorem test_setBit_top : outcome (operands [0, 0, 0, 0] [0, 0, 0, 0] 0x7F) 2 = some (.none, [0, 0, 0, 0x80000000]) := by decide
/-- 2.2 row 5: b = W. -/
theorem test_setBit_overflow : outcome (operands [0xB, 0, 0, 0] [0, 0, 0, 0] 0x80) 2 = some (.widthOverflow, [0, 0, 0, 0]) := by decide
/-- 2.3 row 4: b = W - 1. -/
theorem test_clearBit_top : outcome (operands [1, 0, 0, 0x80000000] [0, 0, 0, 0] 0x7F) 3 = some (.none, [1, 0, 0, 0]) := by decide
/-- 2.3 row 2: bit already clear. -/
theorem test_clearBit_clear : outcome (operands [0xB, 0, 0, 0] [0, 0, 0, 0] 2) 3 = some (.none, [0xB, 0, 0, 0]) := by decide
/-- 2.4 row 5: OPA[W-2] set fits. -/
theorem test_shiftIn_fits : outcome (operands [0, 0, 0, 0x40000000] [1, 0, 0, 0] 0) 4 = some (.none, [1, 0, 0, 0x80000000]) := by decide
/-- 2.4 row 7: negative ordinal and OPA[W-1] set. -/
theorem test_shiftIn_priority : outcome (operands [0, 0, 0, 0x80000000] [1, 0, 0, 0] 0xFFFFFFFF) 4 = some (.invalidArgument, [0, 0, 0, 0]) := by decide
/-- 2.5 row 1: bit set. -/
theorem test_xorIfMsbSet_set : outcome (operands [0xC, 0, 0, 0] [0xB, 0, 0, 0] 3) 5 = some (.none, [7, 0, 0, 0]) := by decide
/-- 2.5 row 2: bit clear. -/
theorem test_xorIfMsbSet_clear : outcome (operands [4, 0, 0, 0] [0xB, 0, 0, 0] 3) 5 = some (.none, [4, 0, 0, 0]) := by decide
/-- 2.6 row 9: s = g + 1, where the source's literal seed boundary differs (90_conflicts.md C1). -/
theorem test_remainder_boundary : outcome (operands [0b100, 0, 0, 0] [0b11, 0, 0, 0] 0) 6 = some (.none, [1, 0, 0, 0]) := by decide
set_option maxRecDepth 4000 in
/-- 2.6 row 16: s = W, g = 33. -/
theorem test_remainder_wide :
    outcome (operands [0xFFFFFFFF, 0xFFFFFFFF, 0xFFFFFFFF, 0xFFFFFFFF] [0x04C11DB7, 1, 0, 0] 0) 6 =
      some (.none, [0x5863CDFC, 0, 0, 0]) := by decide
/-- 2.7 row 4: s + g - 1 = W. -/
theorem test_pad_fits :
    outcome (operands [0xFFFFFFFF, 0xFFFFFFFF, 0xFFFFFFFF, 0x0FFFFFFF] [0b10101, 0, 0, 0] 0) 7 =
      some (.none, [0xFFFFFFF0, 0xFFFFFFFF, 0xFFFFFFFF, 0xFFFFFFFF]) := by decide
/-- 2.7 row 8: g = W, OPA = 0b11. -/
theorem test_pad_overflow :
    outcome (operands [0b11, 0, 0, 0] [1, 0, 0, 0x80000000] 0) 7 = some (.widthOverflow, [0, 0, 0, 0]) := by decide
/-- 2.8 row 5: the padded value has s = g + 1. -/
theorem test_encode_boundary : outcome (operands [0b10, 0, 0, 0] [0b11, 0, 0, 0] 0) 8 = some (.none, [0b101, 0, 0, 0]) := by decide
set_option maxRecDepth 4000 in
/-- 2.8 row 8. -/
theorem test_encode_wide :
    outcome (operands [0x36373839, 0x32333435, 0x31, 0] [0x04C11DB7, 1, 0, 0] 0) 8 =
      some (.none, [0x89A1897F, 0x36373839, 0x32333435, 0x31]) := by decide
/-- 2.9 row 2: true. -/
theorem test_decode_true : outcome (operands [0b11011011011, 0, 0, 0] [0b10101, 0, 0, 0] 0) 9 = some (.none, [1, 0, 0, 0]) := by decide
/-- 2.9 row 9: bit 4 flipped. -/
theorem test_decode_false : outcome (operands [0b11011001011, 0, 0, 0] [0b10101, 0, 0, 0] 0) 9 = some (.none, [0, 0, 0, 0]) := by decide
/-- V6: a reserved word. -/
theorem test_reserved_word : outcome State.reset 0x19 = some (.illegalCommand, [0, 0, 0, 0]) := by decide

/-! ## Accesses (95_test_vectors.md section 3) -/

/-- The port's answer and STATUS after one step. -/
def served (s : State) : Option (Option Response × Word) :=
  match step s with
  | .next t => some (t.response, t.statusWord)
  | .fault _ => none
  | .refused _ => none

/-- The fault of one step, where it faults. -/
def faulted (s : State) : Option Fault :=
  match step s with
  | .next _ => none
  | .fault f => some f
  | .refused _ => none

/-- The block of width W at BASE 0 right after reset, with these inputs to come. -/
def fresh (width : Nat) (inbox : List Event) : State := { State.resetWith ⟨width, 0⟩ with inbox := inbox }

theorem test_v1_id : served (fresh 128 [.access (busRead ⟨128, 0⟩ 0x000)]) = some (some (.data 0x43524331), 0) := by decide
theorem test_v11_param : served (fresh 64 [.access (busRead ⟨64, 0⟩ 0x004)]) = some (some (.data 0x40), 0) := by decide
theorem test_v5_issue : served (fresh 128 [.access (busWrite ⟨128, 0⟩ 0x010 6)]) = some (some .ack, 1) := by decide
theorem test_v7_dropped :
    served { (fresh 128 [.access (busWrite ⟨128, 0⟩ 0x014 2)]) with phase := .busy, cmd := 1 } = some (some .ack, 5) := by decide
theorem test_v8_soft_reset :
    served { (fresh 128 [.access (busWrite ⟨128, 0⟩ 0x008 3)]) with phase := .busy, cmd := 1 } = some (some .ack, 0) := by decide
theorem test_v10_unmapped : faulted (fresh 128 [.access (busRead ⟨128, 0⟩ 0x110)]) = some .busErrorUnmapped := by decide
theorem test_v10_misaligned : faulted (fresh 128 [.access (busWrite ⟨128, 0⟩ 0x002 0)]) = some .busErrorMisaligned := by decide
theorem test_v12_last_word : served (fresh 2048 [.access (busRead ⟨2048, 0⟩ 0x3FC)]) = some (some (.data 0), 0) := by decide

/-- The trace of R154, first pass: `reg` 0b11100 and `shift` 4. -/
theorem test_r154_first_pass : datapathAfter 0b11011010000 0b10101 1 = { reg := 0b11100, shift := 4, g := 5, s := 11 } := by decide
/-- The trace of R154, after the last pass: `reg` 0b11110 and `shift` -1. -/
theorem test_r154_last_pass : datapathAfter 0b11011010000 0b10101 6 = { reg := 0b11110, shift := -1, g := 5, s := 11 } := by decide

/-! ## Witnesses: the hypotheses of each obligation are met (W = 64, N = 2, BASE = 0x400) -/

/-- W = 64 at BASE 0x400. -/
def small : Params := ⟨64, 0x400⟩

/-- The block `small` right after reset, with these inputs to come. -/
def idle (inbox : List Event) : State := { State.resetWith small with inbox := inbox }

/-- The block `small` with word `d` in flight, its operands not 0, and these inputs to come. -/
def busy (d : Word) (inbox : List Event) : State :=
  { State.resetWith small with opa := [0b1101, 0], opb := [0b101, 0], idx := 2, cmd := d, phase := .busy, inbox := inbox }

/-- The block `small`, idle, with these operands. -/
def holding (opa opb : List Word) (idx : Word) : State := { State.resetWith small with opa := opa, opb := opb, idx := idx }

/-- The next input of `s` is this write. -/
def write (off : Nat) (d : Word) : Event := .access (busWrite small off d)

/-- The next input of `s` is this read. -/
def read (off : Nat) : Event := .access (busRead small off)

theorem witness_DecodeEncodeAgree : Instr.wf .pad = true ∧ decode 7#32 = .ok .pad ∧ encode .pad = 7#32 := by decide
theorem witness_ReservedWordsAreIllegal :
    (busy 0x19 [.complete]).phase = .busy ∧ (busy 0x19 [.complete]).inbox = [.complete] ∧ (busy 0x19 [.complete]).cmd = 0x19#32 ∧
    execute 0x19 64 13 5 2 = .err .illegalCommand ∧ mbzField 0x19 ≠ 0 ∧ opField 0x0 = 0 ∧ 0xA ≤ (opField 0xA).toNat := by decide
theorem witness_StepRunsDecodedCommand :
    (busy 6 [.complete]).phase = .busy ∧ (busy 6 [.complete]).inbox = [.complete] ∧ decode (busy 6 [.complete]).cmd = .ok .remainder ∧
    (busy 9 []).phase = .busy ∧ (busy 9 []).inbox = [] ∧ decode (busy 9 []).cmd = .ok .decode := ⟨rfl, rfl, rfl, rfl, rfl, rfl⟩
theorem witness_CompletionAppliesExecute :
    (busy 8 [.complete]).Wf ∧ (busy 8 [.complete]).phase = .busy ∧ (busy 8 [.complete]).inbox = [.complete] := by decide
theorem witness_ExecuteAnswersFit :
    small.wf = true ∧ 2 ^ 64 - 1 < 2 ^ small.width ∧ execute 5 small.width (2 ^ 64 - 1) 1 63 = .ok (2 ^ 64 - 2) := by decide
theorem witness_IssueEvent :
    (idle [write 0x010 0x19]).Inv ∧ (idle [write 0x010 0x19]).phase = .idle ∧ NextWrite (idle [write 0x010 0x19]) 0x010 0x19 [] ∧
    decode 0x19#32 = .error .mbzNotZero := ⟨by decide, rfl, ⟨rfl, by decide, rfl⟩, rfl⟩
theorem witness_BusyBlockAccesses_dropped :
    (busy 6 [write 0x204 1]).Inv ∧ (busy 6 [write 0x204 1]).phase = .busy ∧ NextWrite (busy 6 [write 0x204 1]) 0x204 1 [] ∧
    FrozenOffset 2 0x100 ∧ FrozenOffset 2 0x104 ∧ FrozenOffset 2 0x200 ∧ FrozenOffset 2 0x204 ∧ FrozenOffset 2 0x010 ∧ FrozenOffset 2 0x014 :=
  ⟨by decide, rfl, ⟨rfl, by decide, rfl⟩, .inr (.inr ⟨0, by decide, .inl rfl⟩), .inr (.inr ⟨1, by decide, .inl rfl⟩),
    .inr (.inr ⟨0, by decide, .inr rfl⟩), .inr (.inr ⟨1, by decide, .inr rfl⟩), .inl rfl, .inr (.inl rfl)⟩
theorem witness_BusyBlockAccesses_ctrl :
    NextWrite (busy 6 [write 0x008 1]) 0x008 1 [] ∧ (1#32).getLsbD 1 = false ∧
    NextWrite (busy 6 [write 0x008 3]) 0x008 3 [] ∧ (3#32).getLsbD 1 = true :=
  ⟨⟨rfl, by decide, rfl⟩, by decide, ⟨rfl, by decide, rfl⟩, by decide⟩
theorem witness_BusyBlockAccesses_others :
    NextWrite (busy 6 [write 0x00C 4]) 0x00C 4 [] ∧ NextRead (busy 6 [read 0x304]) 0x304 [] ∧ MappedOffset 2 0x304 :=
  ⟨⟨rfl, by decide, rfl⟩, ⟨rfl, by decide, rfl⟩, .inr ⟨1, by decide, .inr (.inr rfl)⟩⟩
theorem witness_EnginePassIsInvisible : (busy 6 [.pass]).inbox = [.pass] := rfl
theorem witness_BusyStatusReadsOneOrFive :
    (busy 6 [read 0x00C]).Inv ∧ (busy 6 [read 0x00C]).phase = .busy ∧ NextRead (busy 6 [read 0x00C]) 0x00C [] :=
  ⟨by decide, rfl, ⟨rfl, by decide, rfl⟩⟩
theorem witness_ResetState : (Params.mk 64 0).wf = true ∧ (Params.mk 2048 0x400).wf = true ∧ 63 < (Params.mk 2048 0x400).words := by
  decide
theorem witness_ResetMeetsInvariant : small.wf = true := by decide
theorem witness_ResetEffect :
    (busy 6 [.rstN false]).Wf ∧ (busy 6 [.rstN false]).inbox = [.rstN false] ∧ IsReset (busy 6 [.rstN false]) ∧
    NextWrite (busy 6 [write 0x008 2]) 0x008 2 [] ∧ (2#32).getLsbD 1 = true :=
  ⟨by decide, rfl, .inl ⟨[], rfl⟩, ⟨rfl, by decide, rfl⟩, by decide⟩
theorem witness_HeldInReset :
    ({ idle [.rstN true] with rstN := false } : State).Inv ∧ ({ idle [.rstN true] with rstN := false } : State).rstN = false ∧
    step { idle [.rstN true] with rstN := false } = .next (idle []) := ⟨by decide, rfl, rfl⟩
theorem witness_ReadsReturnRegisters :
    (idle []).Wf ∧ NextRead (idle [read 0x000]) 0x000 [] ∧ NextRead (idle [read 0x004]) 0x004 [] ∧ NextRead (idle [read 0x008]) 0x008 [] ∧
    NextRead (idle [read 0x00C]) 0x00C [] ∧ NextRead (idle [read 0x010]) 0x010 [] ∧ NextRead (idle [read 0x014]) 0x014 [] ∧
    MappedOffset 2 0x000 ∧ MappedOffset 2 0x014 :=
  ⟨by decide, ⟨rfl, by decide, rfl⟩, ⟨rfl, by decide, rfl⟩, ⟨rfl, by decide, rfl⟩, ⟨rfl, by decide, rfl⟩, ⟨rfl, by decide, rfl⟩,
    ⟨rfl, by decide, rfl⟩, .inl ⟨0, by decide, rfl⟩, .inl ⟨5, by decide, rfl⟩⟩
theorem witness_ReadsReturnRegisters_wide :
    NextRead (idle [read 0x104]) (0x100 + 4 * 1) [] ∧ NextRead (idle [read 0x200]) (0x200 + 4 * 0) [] ∧
    NextRead (idle [read 0x304]) (0x300 + 4 * 1) [] ∧ 1 < (idle []).words :=
  ⟨⟨rfl, by decide, rfl⟩, ⟨rfl, by decide, rfl⟩, ⟨rfl, by decide, rfl⟩, by decide⟩
theorem witness_WordLayout :
    (idle [read 0x204]).Wf ∧ 0x200 = 0x200 ∧ (idle [read 0x204]).opbValue = 0 ∧ 1 < (idle []).words ∧
    NextRead (idle [read 0x204]) (0x200 + 4 * 1) [] := ⟨by decide, rfl, by decide, by decide, ⟨rfl, by decide, rfl⟩⟩
theorem witness_OperandWrites :
    (idle [write 0x104 7]).Inv ∧ (idle [write 0x104 7]).phase = .idle ∧ 1 < (idle []).words ∧
    NextWrite (idle [write 0x104 7]) (0x100 + 4 * 1) 7 [] ∧ NextWrite (idle [write 0x200 7]) (0x200 + 4 * 0) 7 [] ∧
    NextWrite (idle [write 0x014 7]) 0x014 7 [] :=
  ⟨by decide, rfl, by decide, ⟨rfl, by decide, rfl⟩, ⟨rfl, by decide, rfl⟩, ⟨rfl, by decide, rfl⟩⟩
theorem witness_ReadOnlyWritesIgnored :
    (busy 6 []).Wf ∧ NextWrite (busy 6 [write 0x000 7]) 0x000 7 [] ∧ NextWrite (busy 6 [write 0x004 7]) 0x004 7 [] ∧
    NextWrite (busy 6 [write 0x304 7]) (0x300 + 4 * 1) 7 [] ∧ 1 < (busy 6 []).words :=
  ⟨by decide, ⟨rfl, by decide, rfl⟩, ⟨rfl, by decide, rfl⟩, ⟨rfl, by decide, rfl⟩, by decide⟩
theorem witness_StatusWriteOneToClear : (idle [write 0x00C 6]).Wf ∧ NextWrite (idle [write 0x00C 6]) 0x00C 6 [] :=
  ⟨by decide, ⟨rfl, by decide, rfl⟩⟩
theorem witness_CtrlWrite :
    (busy 6 []).Wf ∧ NextWrite (busy 6 [write 0x008 1]) 0x008 1 [] ∧ (1#32).getLsbD 1 = false ∧
    NextWrite (busy 6 [write 0x008 3]) 0x008 3 [] ∧ (3#32).getLsbD 1 = true :=
  ⟨by decide, ⟨rfl, by decide, rfl⟩, by decide, ⟨rfl, by decide, rfl⟩, by decide⟩
theorem witness_BusErrorExactly :
    (idle []).Wf ∧ (idle []).rstN = true ∧ small.base ≤ 0x400 ∧ 0x7FC < small.base + 0x400 ∧
    (∃ f, step (idle [.access ⟨0x400, 8, .read, .device⟩]) = .fault f) ∧ (∃ f, step (idle [.access ⟨0x401, 32, .read, .device⟩]) = .fault f) ∧
    (∃ f, step (idle [.access ⟨0x418, 32, .read, .device⟩]) = .fault f) ∧ (∃ f, step (idle [.access ⟨0x7FC, 32, .read, .device⟩]) = .fault f) ∧
    MappedOffset (idle []).words (0x414 - small.base) :=
  ⟨by decide, rfl, by decide, by decide, ⟨_, rfl⟩, ⟨_, rfl⟩, ⟨_, rfl⟩, ⟨_, rfl⟩, .inl ⟨5, by decide, rfl⟩⟩
theorem witness_OnlyAccessesStop :
    step (idle [.access ⟨0x3FC, 32, .read, .device⟩]) = .refused .outsideWindow ∧
    step { idle [read 0x000] with rstN := false } = .refused .accessDuringReset ∧
    step (idle [.access ⟨0x400, 32, .read, ⟨true, false, false, false⟩⟩]) = .refused .notDeviceMapped ∧
    step (idle [.access ⟨0x400, 32, .read, ⟨false, false, false, true⟩⟩]) = .refused .notDeviceMapped ∧
    step (idle [.access ⟨0x418, 32, .read, .device⟩]) = .fault .busErrorUnmapped := ⟨rfl, rfl, rfl, rfl, rfl⟩
theorem witness_StepKeepsInvariant : (busy 6 [.complete]).Inv ∧ ∃ t, step (busy 6 [.complete]) = .next t := ⟨by decide, _, rfl⟩

/-- The model's choice of assumption 6: the first internal step loads nothing for a PAD that fails its generator check, and OPA and the
lengths of R152 for one that does not. -/
theorem test_pad_datapath :
    ({ busy 7 [] with opb := [1, 0] } : State).enginePass.datapath = none ∧
    (busy 7 []).enginePass.datapath = some { reg := 0b1101, shift := -1, g := 3, s := 4 } := by decide

/-- `busy 6` with the datapath loaded by one internal step. -/
def loaded (inbox : List Event) : State := { busy 6 inbox with datapath := some (Datapath.seed 0b1101 0b101) }

theorem witness_StepKeepsDatapathOnTrack :
    (loaded [.pass]).Inv ∧ (loaded [.pass]).DatapathOnTrack ∧ ∃ t, step (loaded [.pass]) = .next t := by
  refine ⟨by decide, ?_, _, rfl⟩
  intro d a gen h1 h2
  cases h1
  cases h2
  decide
theorem witness_PhaseMoves :
    (idle [write 0x010 6]).Inv ∧ (idle [write 0x010 6]).phase = .idle ∧ IsIssue (idle [write 0x010 6]) 6 ∧
    (∃ t, step (idle [write 0x010 6]) = .next t) ∧ (busy 6 []).Inv ∧ (busy 6 []).phase = .busy ∧ IsCompletion (busy 6 []) ∧
    ∃ t, step (busy 6 []) = .next t :=
  ⟨by decide, rfl, ⟨rfl, [], rfl, by decide, rfl⟩, ⟨_, rfl⟩, by decide, rfl, ⟨rfl, .inl rfl⟩, _, rfl⟩

/-- The block `small`, idle, with DONE and OVR set. -/
def done (inbox : List Event) : State := { idle inbox with done := true, ovr := true, ie := true }

theorem witness_DoneRule :
    IsCompletion (busy 6 [.complete]) ∧ (busy 6 [.complete]).Inv ∧ (done [write 0x00C 2]).Inv ∧ NextWrite (done [write 0x00C 2]) 0x00C 2 [] ∧
    (2#32).getLsbD 1 = true ∧ (∃ t, step (done [write 0x00C 2]) = .next t ∧ t.done ≠ (done [write 0x00C 2]).done) ∧
    IsReset (done [.rstN false]) ∧ IsIssue (done [write 0x010 1]) 1 :=
  ⟨⟨rfl, .inr ⟨[], rfl⟩⟩, by decide, by decide, ⟨rfl, by decide, rfl⟩, by decide, ⟨_, rfl, by decide⟩, .inl ⟨[], rfl⟩,
    ⟨rfl, [], rfl, by decide, rfl⟩⟩
theorem witness_OvrRule :
    (busy 6 [write 0x014 1]).ovr = false ∧ IsDropped (busy 6 [write 0x014 1]) ∧ (∃ t, step (busy 6 [write 0x014 1]) = .next t) ∧
    (done [write 0x00C 4]).ovr = true ∧ (done [write 0x00C 4]).Inv ∧ NextWrite (done [write 0x00C 4]) 0x00C 4 [] ∧ (4#32).getLsbD 2 = true ∧
    IsIssue (done [write 0x010 1]) 1 :=
  ⟨rfl, ⟨rfl, 0x014, 1, [], ⟨rfl, by decide, rfl⟩, .inr (.inl rfl)⟩, ⟨_, rfl⟩, rfl, by decide, ⟨rfl, by decide, rfl⟩, by decide,
    ⟨rfl, [], rfl, by decide, rfl⟩⟩
theorem witness_RegistersChangeOnlyBy :
    (∃ t, step (idle [write 0x100 1]) = .next t ∧ t.opa ≠ (idle [write 0x100 1]).opa) ∧
    (∃ t, step (idle [write 0x204 1]) = .next t ∧ t.opb ≠ (idle [write 0x204 1]).opb) ∧
    (∃ t, step (idle [write 0x014 1]) = .next t ∧ t.idx ≠ (idle [write 0x014 1]).idx) ∧
    (∃ t, step (idle [write 0x010 1]) = .next t ∧ t.cmd ≠ (idle [write 0x010 1]).cmd) ∧
    (∃ t, step (busy 1 []) = .next t ∧ t.result ≠ (busy 1 []).result) ∧ (idle [write 0x204 1]).Inv ∧ (busy 1 []).Inv :=
  ⟨⟨_, rfl, by decide⟩, ⟨_, rfl, by decide⟩, ⟨_, rfl, by decide⟩, ⟨_, rfl, by decide⟩, ⟨_, rfl, by decide⟩, by decide, by decide⟩
theorem witness_IrqRule :
    IsCompletion (busy 6 []) ∧ (busy 6 []).Inv ∧ ({ done [write 0x008 1] with ie := false } : State).Inv ∧
    ({ done [write 0x008 1] with ie := false } : State).irq = false ∧
    (∃ t, step { done [write 0x008 1] with ie := false } = .next t ∧ t.irq = true) ∧ IsReset (done [.rstN false]) :=
  ⟨⟨rfl, .inl rfl⟩, by decide, by decide, rfl, ⟨_, rfl, rfl⟩, .inl ⟨[], rfl⟩⟩
theorem witness_FailureChangesOnlyStatus :
    (busy 0x19 []).Inv ∧ IsCompletion (busy 0x19 []) ∧ ∃ t, step (busy 0x19 []) = .next t ∧ t.err ≠ .none :=
  ⟨by decide, ⟨rfl, .inl rfl⟩, _, rfl, by decide⟩

/-- Inputs that come between issue and completion: a dropped write, an internal step, a read, `rst_n` still high, IE set. -/
def between : List Event := [write 0x100 0xFF, .pass, read 0x300, .rstN true, write 0x008 1]

theorem witness_OperandsFrozenUntilCompletion :
    (busy 6 (between ++ [.complete])).Inv ∧ (busy 6 (between ++ [.complete])).phase = .busy ∧
    (busy 6 (between ++ [.complete])).inbox = between ++ [.complete] ∧ (∀ e ∈ between, e.keepsCommand = true) ∧
    ∃ t, Host.Core.run Sys2Proof.core (between.length + 1) (busy 6 (between ++ [.complete])) = .next t :=
  ⟨by decide, rfl, rfl, by decide, _, rfl⟩
theorem witness_EngineCompletes :
    (busy 6 [.pass, .pass]).Inv ∧ (busy 6 [.pass, .pass]).phase = .busy ∧ ∀ e ∈ (busy 6 [.pass, .pass]).inbox, e.isEngine = true := by decide
theorem witness_WideWriteExpansion :
    (idle ((ScriptOp.expand small (.wrw .opb (2 ^ 64 - 1))).map Event.access)).Inv ∧ (ScriptOp.wrw .opb (2 ^ 64 - 1)).wf small = true ∧
    (idle []).phase = .idle ∧ (idle []).rstN = true ∧
    (ScriptOp.expand small (.wrw .opb (2 ^ 64 - 1))).map Event.access = [write 0x200 0xFFFFFFFF, write 0x204 0xFFFFFFFF] := by decide
theorem witness_SignedOrdinal : (holding [] [] 0xFFFFFFFF).idx = 0xFFFFFFFF#32 ∧ (holding [] [] 0x80).idx = 0x00000080#32 := ⟨rfl, rfl⟩
theorem witness_LengthOfValue : 0 < 0b1011 ∧ len 0b1011 = 3 + 1 := by decide

theorem witness_GetBitCompletes :
    (holding [5, 0] [0, 0] 63).Wf ∧ (holding [5, 0] [0, 0] 0xFFFFFFFF).ordinal < 0 ∧ 0 ≤ (holding [5, 0] [0, 0] 63).ordinal ∧
    len (holding [5, 0] [0, 0] 63).opaValue ≤ 63 ∧ (holding [5, 0] [0, 0] 64).width ≤ (holding [5, 0] [0, 0] 64).ordinal.toNat := by decide
theorem witness_SetBitCompletes :
    (holding [5, 0] [0, 0] 0).Wf ∧ (holding [5, 0] [0, 0] 0x80000000).ordinal < 0 ∧
    ((holding [5, 0] [0, 0] 64).width : Int) ≤ (holding [5, 0] [0, 0] 64).ordinal ∧
    (holding [5, 0] [0, 0] 63).ordinal < (holding [5, 0] [0, 0] 63).width ∧ 0 ≤ (holding [5, 0] [0, 0] 0).ordinal ∧
    (holding [5, 0] [0, 0] 0).opaValue.testBit 0 = true ∧ (holding [0, 0] [0, 0] 0).opaValue = 0 := by decide
theorem witness_ClearBitCompletes :
    (holding [5, 0] [0, 0] 2).Wf ∧ (holding [5, 0] [0, 0] 0xFFFFFFFF).ordinal < 0 ∧ 0 ≤ (holding [5, 0] [0, 0] 2).ordinal ∧
    len (holding [5, 0] [0, 0] 3).opaValue ≤ (holding [5, 0] [0, 0] 3).ordinal.toNat ∧
    (holding [5, 0] [0, 0] 64).width ≤ (holding [5, 0] [0, 0] 64).ordinal.toNat := by decide
theorem witness_ShiftInCompletes :
    (holding [5, 0x80000000] [1, 0] 0).Wf ∧ (holding [5, 0] [1, 0] 0xFFFFFFFF).ordinal < 0 ∧
    (holding [5, 0x80000000] [1, 0] 0).opaValue.testBit 63 = true ∧ (holding [5, 0x40000000] [1, 0] 1).opaValue.testBit 63 = false ∧
    0 ≤ (holding [5, 0x40000000] [1, 0] 1).ordinal ∧ len (holding [5, 0x40000000] [1, 0] 1).opbValue ≤ 1 := by decide
theorem witness_XorIfMsbSetCompletes :
    (holding [5, 0] [5, 0] 2).Wf ∧ (holding [5, 0] [5, 0] 0xFFFFFFFF).ordinal < 0 ∧ 0 ≤ (holding [5, 0] [5, 0] 2).ordinal ∧
    (holding [5, 0] [5, 0] 2).opaValue.testBit 2 = true ∧ (holding [5, 0] [5, 0] 2).opaValue = (holding [5, 0] [5, 0] 2).opbValue ∧
    (holding [5, 0] [5, 0] 1).opaValue.testBit 1 = false := by decide
theorem witness_BitOpLaws : 5 < 2 ^ 64 ∧ 63 < 64 ∧ gb 5 63 = 0 ∧ gb 3 63 = 0 := by decide

theorem witness_RemainderIsPolynomialRemainder :
    (holding [4, 0] [3, 0] 0).Wf ∧ len (holding [4, 0] [1, 0] 0).opbValue < 2 ∧ 2 ≤ len (holding [4, 0] [3, 0] 0).opbValue := by decide
theorem witness_IsRemainder : IsRemainder 0b100 0b11 0b1 := ⟨by decide, 0b11, by decide⟩
theorem witness_RemainderBound : 2 ≤ len 0b10 := by decide
theorem witness_MaskNeverChangesReg : 2 ≤ len 0b101 ∧ 0 < len 0b11011 - len 0b101 := by decide
theorem witness_LoopPassCount : 2 ^ 64 - 1 < 2 ^ 64 ∧ 2 ≤ len 0b10 ∧ 61 < len (2 ^ 64 - 1) - len 0b10 := by decide
theorem witness_RemainderCornerCases : 2 ≤ len 0b10101 ∧ len 0b101 < len 0b10101 ∧ len 0b11111 = len 0b10101 := by decide
theorem witness_RemainderLinear : 2 ≤ len 0b11 := by decide

theorem witness_PadCompletes :
    (holding [1, 0] [3, 0] 0).Wf ∧ len (holding [1, 0] [1, 0] 0).opbValue < 2 ∧ 2 ≤ len (holding [1, 0] [3, 0] 0).opbValue ∧
    (holding [3, 0] [1, 0x80000000] 0).opaValue ≠ 0 ∧
    64 < len (holding [3, 0] [1, 0x80000000] 0).opaValue + len (holding [3, 0] [1, 0x80000000] 0).opbValue - 1 ∧
    len (holding [1, 0] [1, 0x80000000] 0).opaValue + len (holding [1, 0] [1, 0x80000000] 0).opbValue - 1 ≤ 64 ∧
    (holding [0, 0] [1, 0x80000000] 0).opaValue = 0 := by decide
theorem witness_EncodeAppendsCheckBits :
    (holding [1, 0] [3, 0] 0).Wf ∧ len (holding [1, 0] [0, 0] 0).opbValue < 2 ∧ 2 ≤ len (holding [1, 0] [3, 0] 0).opbValue ∧
    (holding [3, 0] [1, 0x80000000] 0).opaValue ≠ 0 ∧
    64 < len (holding [3, 0] [1, 0x80000000] 0).opaValue + len (holding [3, 0] [1, 0x80000000] 0).opbValue - 1 ∧
    (holding [1, 0] [3, 0] 0).opaValue = 1 ∧ (holding [0, 0] [3, 0] 0).opaValue = 0 ∧
    len (holding [1, 0] [3, 0] 0).opaValue + len (holding [1, 0] [3, 0] 0).opbValue - 1 ≤ 64 := by decide
theorem witness_DecodeTestsDivisibility :
    (holding [5, 0] [3, 0] 0).Wf ∧ len (holding [5, 0] [1, 0] 0).opbValue < 2 ∧ 2 ≤ len (holding [5, 0] [3, 0] 0).opbValue ∧
    0 < len (holding [1, 0] [3, 0] 0).opaValue ∧ len (holding [1, 0] [3, 0] 0).opaValue < len (holding [1, 0] [3, 0] 0).opbValue ∧
    (holding [3, 0] [3, 0] 0).opaValue = (holding [3, 0] [3, 0] 0).opbValue := by decide
theorem witness_Divides : Divides 0b11 0b101 := ⟨0b11, by decide⟩
theorem witness_not_Divides : rem 0b100 0b11 ≠ 0 := by decide
theorem witness_EncodeNeverCarries : 2 ≤ len 0b11 := by decide
theorem witness_CodecResultLengths : 5 < 2 ^ 64 ∧ 3 < 2 ^ 64 ∧ 2 ≤ len 3 ∧ 5 ≠ 0 := by decide
theorem witness_EncodeRoundTrip :
    (holding [2, 0] [3, 0] 0).Wf ∧ 2 ≤ len (holding [2, 0] [3, 0] 0).opbValue ∧
    len (holding [2, 0] [3, 0] 0).opaValue + len (holding [2, 0] [3, 0] 0).opbValue - 1 ≤ (holding [2, 0] [3, 0] 0).width := by decide
theorem witness_SingleBitFlips :
    2 ≤ len 0b10101 ∧ rem 0b11011011011 0b10101 = 0 ∧ 2 ≤ setBitsBelow 0b10101 (len 0b10101) ∧
    2 ≤ len 0b10 ∧ rem 0 0b10 = 0 ∧ setBitsBelow 0b10 (len 0b10) = 1 ∧ len 0b10 - 1 ≤ 3 := by decide

theorem witness_ErrorsExactly :
    (holding [5, 0] [1, 0] 0xFFFFFFFF).Wf ∧ Instr.isBitOp .getBit = true ∧ (holding [5, 0] [1, 0] 0xFFFFFFFF).ordinal < 0 ∧
    Instr.isBitOp .decode = false ∧ len (holding [5, 0] [1, 0] 0).opbValue < 2 ∧
    ((holding [5, 0] [1, 0] 64).width : Int) ≤ (holding [5, 0] [1, 0] 64).ordinal := by decide
theorem witness_CheckPriority :
    decode 0#32 = .error .reservedOpcode ∧ decode 4#32 = .ok .shiftIn ∧ ArgumentInvalid .shiftIn 1 (-1) ∧ ¬ ArgumentInvalid .shiftIn 1 0 ∧
    WidthExceeded .shiftIn 64 (2 ^ 63) 1 0 ∧ ¬ WidthExceeded .shiftIn 64 1 1 0 := by
  refine ⟨rfl, rfl, .inl ⟨rfl, by decide⟩, ?_, .inr (.inl ⟨rfl, by decide⟩), ?_⟩
  · rintro (⟨_, h⟩ | ⟨h, _⟩) <;> revert h <;> decide
  · rintro (⟨h, _⟩ | ⟨_, h⟩ | ⟨h, _⟩) <;> revert h <;> decide
theorem witness_ResultDependsOnOperandsOnly :
    (holding [5, 0] [1, 0] 2).params = ({ holding [5, 0] [3, 0] 2 with ovr := true } : State).params ∧
    (holding [5, 0] [1, 0] 2).opa = ({ holding [5, 0] [3, 0] 2 with ovr := true } : State).opa ∧
    (holding [5, 0] [1, 0] 2).idx = ({ holding [5, 0] [3, 0] 2 with ovr := true } : State).idx := ⟨rfl, rfl, rfl⟩

end Sys2Proof.Tests
end

/-! # The length of a number (R12) -/

section
namespace Sys2Proof.Proofs
open Sys2Proof.Machine

/-- R12 for one direction: a set bit of `v` lies below the length. -/
theorem lt_len_of_testBit {v k : Nat} (h : v.testBit k = true) : k < len v :=
  (lt_len_iff v k).2 (Nat.ge_two_pow_of_testBit h)

/-- R12 for the other: a bound above which every bit is 0 bounds the length. -/
theorem len_le_of_testBit_eq_false {v n : Nat} (h : ∀ i, n ≤ i → v.testBit i = false) : len v ≤ n :=
  (len_le_iff v n).2 (Nat.lt_pow_two_of_testBit v h)

/-- R12: the top set bit fixes the length. -/
theorem len_eq_succ_iff {v k : Nat} (hv : v ≠ 0) :
    len v = k + 1 ↔ v.testBit k = true ∧ ∀ i, k < i → v.testBit i = false := by
  constructor
  · intro hlen
    have htop : v.testBit k = true := by simpa [hlen] using testBit_len_sub_one hv
    exact ⟨htop, fun i hi => testBit_of_len_le (by omega)⟩
  · rintro ⟨hbit, habove⟩
    have hlower : k < len v := lt_len_of_testBit hbit
    have hupper : len v ≤ k + 1 := len_le_of_testBit_eq_false habove
    omega

/-- Settles O36, from the top bit of a nonzero number. -/
theorem lengthOfValue : Obligations.LengthOfValue :=
  ⟨len_zero, fun _ _ hv => len_eq_succ_iff hv.ne'⟩

end Sys2Proof.Proofs
end

/-! # Which register a host write reaches, and the events it can be (R20, R45, R47, R230) -/

section
namespace Sys2Proof.Proofs
open Sys2Proof.Machine

/-- The registers whose writes a busy block drops: OPA, OPB, IDX and CMD (R47). -/
def frozen : Reg → Bool
  | .cmd | .idx | .opa _ | .opb _ => true
  | .id | .param | .ctrl | .status | .result _ => false

/-- The frozen offsets are those of the frozen registers (R47). -/
theorem frozenOffset_iff {n : Nat} (hn : n ≤ 64) {r : Reg} (hr : r.present n = true) :
    FrozenOffset n r.offset ↔ frozen r = true := by
  constructor
  · have hits {r' : Reg} (hr' : r'.present n = true) (hf : frozen r' = true) (ho : r.offset = r'.offset) :
        frozen r = true := by rwa [Reg.offset_injective hn hr hr' ho]
    rintro (ho | ho | ⟨k, hk, ho | ho⟩)
    · exact hits (r' := .cmd) rfl rfl ho
    · exact hits (r' := .idx) rfl rfl ho
    · exact hits (r' := .opa k) (decide_eq_true hk) rfl ho
    · exact hits (r' := .opb k) (decide_eq_true hk) rfl ho
  · intro hf
    cases r with
    | cmd => exact .inl rfl
    | idx => exact .inr (.inl rfl)
    | opa k => exact .inr (.inr ⟨k, of_decide_eq_true hr, .inl rfl⟩)
    | opb k => exact .inr (.inr ⟨k, of_decide_eq_true hr, .inr rfl⟩)
    | id | param | ctrl | status | result => cases hf

section HostWrite
variable {s : State} {r : Reg} {d : Word} {rest : List Event}

/-- A write of one register is a write of `r'` with some property of its data exactly when it is one of that register. -/
theorem exists_nextWrite_iff (hs : s.Wf) (hr : r.present s.words = true) (hw : NextWrite s r.offset d rest)
    (r' : Reg) (hr' : r'.present s.words = true) (P : Word → Prop) :
    (∃ d' rest', NextWrite s r'.offset d' rest' ∧ P d') ↔ r = r' ∧ P d := by
  constructor
  · rintro ⟨d', rest', hw', hP⟩
    obtain ⟨ho, rfl, -⟩ := hw.unique hw'
    exact ⟨Reg.offset_injective hs.words_le hr hr' ho, hP⟩
  · rintro ⟨rfl, hP⟩
    exact ⟨d, rest, hw, hP⟩

/-- The write acknowledges bit `b` of STATUS exactly when it reaches STATUS with that bit set (R39). -/
theorem statusBitWrite_iff (hs : s.Wf) (hr : r.present s.words = true) (hw : NextWrite s r.offset d rest) (b : Nat) :
    (∃ d' rest', NextWrite s 0x00C d' rest' ∧ d'.getLsbD b = true) ↔ r = .status ∧ d.getLsbD b = true :=
  exists_nextWrite_iff hs hr hw .status rfl _

/-- The write is an issue exactly when it reaches CMD of an idle block (R45). -/
theorem isIssue_iff_of_write (hs : s.Wf) (hr : r.present s.words = true) (hw : NextWrite s r.offset d rest) :
    (∃ d', IsIssue s d') ↔ s.phase = .idle ∧ r = .cmd := by
  have hcmd := exists_nextWrite_iff hs hr hw .cmd rfl fun _ => True
  simp only [and_true] at hcmd
  rw [← hcmd]
  exact exists_and_left

/-- The write is a reset exactly when it reaches CTRL with SRST set (R37, R230). -/
theorem isReset_iff_of_write (hs : s.Wf) (hr : r.present s.words = true) (hw : NextWrite s r.offset d rest) :
    IsReset s ↔ r = .ctrl ∧ d.getLsbD 1 = true := by
  have hpin : ¬ ∃ rest', s.inbox = .rstN false :: rest' := by
    rintro ⟨rest', hi⟩
    obtain ⟨-, -, hin⟩ := hw
    exact nomatch hin.symm.trans hi
  rw [IsReset, or_iff_right hpin]
  exact exists_nextWrite_iff hs hr hw .ctrl rfl _

/-- The write is dropped exactly when the block is busy and the register is a frozen one (R47). -/
theorem isDropped_iff_of_write (hs : s.Wf) (hr : r.present s.words = true) (hw : NextWrite s r.offset d rest) :
    IsDropped s ↔ s.phase = .busy ∧ frozen r = true := by
  rw [IsDropped, ← frozenOffset_iff hs.words_le hr]
  refine and_congr_right fun _ => ⟨?_, fun hf => ⟨_, d, rest, hw, hf⟩⟩
  rintro ⟨off, d', rest', hw', hf⟩
  rwa [(hw.unique hw').1]

end HostWrite

section NoHostWrite
variable {s : State}

theorem not_isIssue_of_no_write (hn : ∀ off d rest, ¬ NextWrite s off d rest) : ¬ ∃ d, IsIssue s d := by
  rintro ⟨d, -, rest, hw⟩
  exact hn _ _ _ hw

theorem not_isDropped_of_no_write (hn : ∀ off d rest, ¬ NextWrite s off d rest) : ¬ IsDropped s := by
  rintro ⟨-, off, d, rest, hw, -⟩
  exact hn _ _ _ hw

theorem not_statusBitWrite_of_no_write (hn : ∀ off d rest, ¬ NextWrite s off d rest) (b : Nat) :
    ¬ ∃ d rest, NextWrite s 0x00C d rest ∧ d.getLsbD b = true := by
  rintro ⟨d, rest, hw, -⟩
  exact hn _ _ _ hw

/-- Without a host write the only reset is `rst_n` sampled low (R230). -/
theorem not_isReset_of_no_write (hn : ∀ off d rest, ¬ NextWrite s off d rest)
    (hr : ∀ rest, s.inbox ≠ .rstN false :: rest) : ¬ IsReset s := by
  rintro (⟨rest, hi⟩ | ⟨d, rest, hw, -⟩)
  · exact hr _ hi
  · exact hn _ _ _ hw

end NoHostWrite

end Sys2Proof.Proofs
end

/-! # Writes of CMD, STATUS and CTRL (R36, R37, R39, R45) -/

section
namespace Sys2Proof.Proofs
open Sys2Proof.Machine

/-- An issue leaves the datapath as it was where it is empty, as it is in every idle block (R41, R45). -/
theorem issue_eq_of_datapath_none {s : State} (h : s.datapath = none) (d : Word) :
    s.issue d = { s with cmd := d, done := false, err := .none, phase := .busy } := by
  simp [State.issue, h]

/-- A reserved word answers ILLEGAL_COMMAND (R83, R204). -/
theorem execute_of_decode_error {d : Word} {e : DecodeError} (h : decode d = .error e) (width opa opb : Nat) (b : Int) :
    execute d width opa opb b = .err .illegalCommand := by
  simp [execute, h]

/-- The completion of a reserved word in flight fails with ILLEGAL_COMMAND (R204). -/
theorem step_complete_reserved {s : State} {rest : List Event} {e : DecodeError} (hp : s.phase = .busy)
    (hi : s.inbox = .complete :: rest) (he : decode s.cmd = .error e) :
    step s = .next (State.completeErr { s with inbox := rest } .illegalCommand) := by
  rw [step_complete_busy hp hi, execute_of_decode_error he, State.complete_err]

/-- A write of CMD to an idle block issues the word (R45). -/
theorem step_issue {s : State} {d : Word} {rest : List Event} (hI : s.Inv) (hp : s.phase = .idle)
    (hw : NextWrite s 0x010 d rest) :
    step s = .next
      { s with inbox := rest, response := some .ack, cmd := d, done := false, err := .none, phase := .busy } := by
  obtain ⟨hs, -, hdp, -⟩ := hI
  rw [step_nextWrite (r := .cmd) hs rfl hw, writeReg, State.writeUnlessBusy_idle (s := { s with inbox := rest }) _ hp,
    issue_eq_of_datapath_none (s := { s with inbox := rest }) (hdp hp)]
  rfl

/-- Settles O8: an idle block issues the word, and a reserved one fails at its completion. -/
theorem issueEvent : Obligations.IssueEvent := by
  intro s d rest hI hp hw
  refine ⟨_, step_issue hI hp hw, rfl, fun e he => ?_⟩
  exact ⟨_, step_complete_reserved rfl rfl he, failsWith_completeErr _ _⟩

/-- Settles O20, from the step of a write of STATUS. -/
theorem statusWriteOneToClear : Obligations.StatusWriteOneToClear := by
  intro s d rest hs hw
  refine ⟨_, step_nextWrite (r := .status) hs rfl hw, rfl, ?_, ?_, rfl, rfl, ?_⟩
  · rw [State.respond_done, writeReg_done]
    cases d.getLsbD 1 <;> simp
  · rw [State.respond_ovr, writeReg_ovr]
    cases d.getLsbD 2 <;> simp
  · rintro rfl
    simp [writeReg_done, writeReg_ovr]

/-- Settles O21: bit 1 of the data tells a write of IE from a soft reset, which gives the registers that `rst_n` low gives. -/
theorem ctrlWrite : Obligations.CtrlWrite := by
  intro s d rest hs hw
  refine ⟨_, step_nextWrite (r := .ctrl) hs rfl hw, fun hset => ?_, fun hsrst => ?_, State.ctrlWord_getLsbD _,
    State.ctrlWord_getLsbD _ 1⟩
  · rw [writeReg, State.writeCtrl_enable hset]
    rfl
  · rw [writeReg, State.writeCtrl_reset hsrst]
    refine ⟨rfl, _, rfl, ?_⟩
    simp [State.respond, State.resetRegisters, hw.1]

end Sys2Proof.Proofs
end

/-! # What a step does to BUSY, DONE and OVR (R31, R32, R44) -/

section
namespace Sys2Proof.Proofs
open Sys2Proof.Machine

/-- What a host write does to the engine's phase (R44): a write of CMD leaves it busy, issued or dropped. -/
theorem writeReg_phase (s : State) (d : Word) (r : Reg) : (writeReg s d r).phase =
    match r with
    | .cmd => .busy
    | .ctrl => if d.getLsbD 1 then .idle else s.phase
    | _ => s.phase := by
  cases r with
  | ctrl => simp only [writeReg, State.writeCtrl]; split <;> rfl
  | id | param | status | result => rfl
  | idx | opa | opb | cmd => cases hp : s.phase <;> simp [writeReg, State.writeUnlessBusy, hp]

theorem busy_iff_statusWord (s : State) : s.phase = .busy ↔ s.statusWord.getLsbD 0 = true := by
  rw [s.statusWord_fields.1, State.busy, beq_iff_eq]

/-- An idle engine turns busy exactly at an issue (R44). -/
theorem step_busy_iff_isIssue {s t : State} (hI : s.Inv) (h : step s = .next t) (hp : s.phase = .idle) :
    t.phase = .busy ↔ ∃ d, IsIssue s d := by
  rcases step_register_cases hI h with ⟨hc, -⟩ | ⟨-, hn, -, _, _, _, _, rfl⟩ | ⟨-, hn, _, -, rfl⟩ |
    ⟨-, -, r, d, rest, hr, hw, rfl⟩
  · exact absurd (hp.symm.trans hc.1) (by decide)
  · simp [not_isIssue_of_no_write hn, hp]
  · simp [not_isIssue_of_no_write hn]
  · rw [isIssue_iff_of_write hI.1 hr hw, State.respond_phase, writeReg_phase]
    cases r <;> simp [hp]

/-- A busy engine turns idle exactly at a completion or a reset (R44). -/
theorem step_idle_iff {s t : State} (hI : s.Inv) (h : step s = .next t) (hp : s.phase = .busy) :
    t.phase = .idle ↔ IsCompletion s ∨ IsReset s := by
  rcases step_register_cases hI h with ⟨hc, -, -, rfl⟩ | ⟨hc, hn, hrst, _, _, _, _, rfl⟩ | ⟨-, -, rest, hi, rfl⟩ |
    ⟨hc, -, r, d, rest, hr, hw, rfl⟩
  · simp [hc, State.complete_phase]
  · simp [hc, not_isReset_of_no_write hn hrst, hp]
  · have hreset : IsReset s := .inl ⟨rest, hi⟩
    simp [hreset]
  · rw [or_iff_right hc, isReset_iff_of_write hI.1 hr hw, State.respond_phase, writeReg_phase]
    cases r <;> simp [hp]

/-- Settles O26, from the two moves of the phase and BUSY of STATUS. -/
theorem phaseMoves : Obligations.PhaseMoves := fun s _ hI h =>
  ⟨step_busy_iff_isIssue hI h, step_idle_iff hI h, s.phase.idle_or_busy, busy_iff_statusWord s⟩

/-- Settles O27, by what each kind of step does to DONE. -/
theorem doneRule : Obligations.DoneRule := by
  intro s t hI h
  rcases step_register_cases hI h with ⟨hc, hn, hrst, rfl⟩ | ⟨hc, hn, hrst, _, _, _, _, rfl⟩ | ⟨hc, -, rest, hi, rfl⟩ |
    ⟨hc, -, r, d, rest, hr, hw, rfl⟩
  · simp [hc, State.complete_done, not_isIssue_of_no_write hn, hn, not_isReset_of_no_write hn hrst]
  · simp [hc, not_isIssue_of_no_write hn, hn, not_isReset_of_no_write hn hrst]
  · have hreset : IsReset s := .inl ⟨rest, hi⟩
    simp [hc, hreset]
  · rw [isIssue_iff_of_write hI.1 hr hw, statusBitWrite_iff hI.1 hr hw, isReset_iff_of_write hI.1 hr hw,
      State.respond_done, writeReg_done]
    cases r <;> simp +contextual [hc]

/-- Settles O28, by what each kind of step does to OVR. -/
theorem ovrRule : Obligations.OvrRule := by
  intro s t hI h
  rcases step_register_cases hI h with ⟨-, hn, hrst, rfl⟩ | ⟨-, hn, hrst, _, _, _, _, rfl⟩ | ⟨hc, hn, rest, hi, rfl⟩ |
    ⟨hc, -, r, d, rest, hr, hw, rfl⟩
  · rw [State.complete_frame]
    simp +contextual [not_isDropped_of_no_write hn, hn, not_isReset_of_no_write hn hrst]
  · simp +contextual [not_isDropped_of_no_write hn, hn, not_isReset_of_no_write hn hrst]
  · have hreset : IsReset s := .inl ⟨rest, hi⟩
    simp [hc, hreset, not_isIssue_of_no_write hn, not_isDropped_of_no_write hn]
  · rw [isIssue_iff_of_write hI.1 hr hw, isDropped_iff_of_write hI.1 hr hw, statusBitWrite_iff hI.1 hr hw,
      isReset_iff_of_write hI.1 hr hw, State.respond_ovr, writeReg_ovr]
    rcases s.phase.idle_or_busy with hp | hp
    · cases r <;> simp +contextual [hc, hp]
    · cases r <;> simp +contextual [hc, hp, frozen]

end Sys2Proof.Proofs
end

/-! # The words of a wide register (R20, R64) -/

section
namespace Sys2Proof.Proofs
open Sys2Proof.Machine

/-- R64 for the whole value: word k weighs `2^(32k)`. -/
theorem valueOf_eq_sum (l : List Word) :
    valueOf l = ∑ k ∈ Finset.range l.length, (l.getD k 0#32).toNat * 2 ^ (32 * k) := by
  induction l with
  | nil => rfl
  | cons w ws ih =>
    have hweight (k : Nat) : 2 ^ (32 * (k + 1)) = 2 ^ 32 * 2 ^ (32 * k) := by rw [← pow_add, Nat.mul_add_one, Nat.add_comm]
    simp only [List.length_cons, Finset.sum_range_succ', List.getD_cons_succ, List.getD_cons_zero, hweight, valueOf, ih,
      Finset.mul_sum, mul_left_comm, Nat.mul_zero, pow_zero, Nat.mul_one]
    exact Nat.add_comm _ _

/-- A slot of the window holds the N words of a wide register: word k is read at `slot + 4k` (R20). -/
theorem wide_register_of_slot {s : State} {slot v : Nat} (hs : s.Wf)
    (h : slot = 0x100 ∧ v = s.opaValue ∨ slot = 0x200 ∧ v = s.opbValue ∨ slot = 0x300 ∧ v = s.resultValue) :
    ∃ (reg : Nat → Reg) (l : List Word), v = valueOf l ∧ l.length = s.words ∧ v < 2 ^ s.width ∧
      ∀ k, (reg k).offset = slot + 4 * k ∧ (reg k).present s.words = decide (k < s.words) ∧
        readReg s (reg k) = l.getD k 0#32 := by
  have ⟨_, hopa, hopb, hresult⟩ := hs
  obtain ⟨rfl, rfl⟩ | ⟨rfl, rfl⟩ | ⟨rfl, rfl⟩ := h
  · exact ⟨.opa, s.opa, rfl, hopa, hs.opa_lt, fun _ => ⟨rfl, rfl, rfl⟩⟩
  · exact ⟨.opb, s.opb, rfl, hopb, hs.opb_lt, fun _ => ⟨rfl, rfl, rfl⟩⟩
  · exact ⟨.result, s.result, rfl, hresult, hs.result_lt, fun _ => ⟨rfl, rfl, rfl⟩⟩

/-- Settles O17: the words that reads answer are those of the register's list, whose sum is the value. -/
theorem wordLayout : Obligations.WordLayout := by
  intro s slot v hs hslot
  obtain ⟨reg, l, rfl, hlen, hlt, hreg⟩ := wide_register_of_slot hs hslot
  refine ⟨fun k => l.getD k 0#32, fun k rest hk hread => ?_, ?_, fun k j _ hj => ?_, hlt⟩
  · obtain ⟨hoff, hpresent, hword⟩ := hreg k
    rw [← hoff] at hread
    rw [step_nextRead hs (hpresent.trans (decide_eq_true hk)) hread, hword]
    rfl
  · rw [← hlen]
    exact valueOf_eq_sum l
  · exact (testBit_valueOf l k j hj).symm

end Sys2Proof.Proofs
end

/-! # Which words decode, and the ordinal (R80 to R82, R85) -/

section
namespace Sys2Proof.Proofs
open Sys2Proof.Machine

theorem decode_encode (i : Instr) : decode (encode i) = .ok i := by
  cases i <;> rfl

/-- A word decodes to a command exactly when it is its command word (R82). -/
theorem decode_eq_ok_iff {d : Word} {i : Instr} : decode d = .ok i ↔ d = encode i := by
  constructor
  · intro h
    rcases decode_ok_cases h with ⟨rfl, rfl⟩ | ⟨rfl, rfl⟩ | ⟨rfl, rfl⟩ | ⟨rfl, rfl⟩ | ⟨rfl, rfl⟩ | ⟨rfl, rfl⟩ |
      ⟨rfl, rfl⟩ | ⟨rfl, rfl⟩ | ⟨rfl, rfl⟩ <;> rfl
  · rintro rfl
    exact decode_encode i

/-- MBZ is 0 exactly when only the four bits of OP are left (R80). -/
theorem mbzField_eq_zero_iff (d : Word) : mbzField d = 0#28 ↔ d.toNat < 16 := by
  have hd : d.toNat < 2 ^ 32 := d.isLt
  rw [← BitVec.toNat_inj, mbzField, BitVec.extractLsb'_toNat, Nat.shiftRight_eq_div_pow, BitVec.toNat_ofNat]
  omega

theorem opField_toNat (d : Word) : (opField d).toNat = d.toNat % 16 := by
  rw [opField, BitVec.extractLsb'_toNat, Nat.shiftRight_zero]

/-- The command words are the numbers 1 to 9 (R82). -/
theorem exists_eq_encode_iff (d : Word) : (∃ i, d = encode i) ↔ 1 ≤ d.toNat ∧ d.toNat ≤ 9 := by
  constructor
  · rintro ⟨i, rfl⟩
    cases i <;> decide
  · rintro ⟨hlow, hhigh⟩
    have hd : d = BitVec.ofNat 32 d.toNat := by simp
    rw [hd]
    generalize d.toNat = n at hlow hhigh
    interval_cases n
    exacts [⟨.getBit, rfl⟩, ⟨.setBit, rfl⟩, ⟨.clearBit, rfl⟩, ⟨.shiftIn, rfl⟩, ⟨.xorIfMsbSet, rfl⟩, ⟨.remainder, rfl⟩,
      ⟨.pad, rfl⟩, ⟨.encode, rfl⟩, ⟨.decode, rfl⟩]

/-- The rows of the opcode map: each command under its command word, matched whole (R81, R82). -/
theorem mem_opcodeTable_iff {r : OpcodeRow} : r ∈ opcodeTable ↔ r = ⟨0xFFFFFFFF#32, encode r.instr, r.instr⟩ := by
  have hrow : ∀ r ∈ opcodeTable, r = ⟨0xFFFFFFFF#32, encode r.instr, r.instr⟩ := by decide
  have hmem (i : Instr) : ⟨0xFFFFFFFF#32, encode i, i⟩ ∈ opcodeTable := by cases i <;> decide
  exact ⟨hrow r, fun h => h ▸ hmem r.instr⟩

/-- A row of the opcode map that names `i` matches the command word of `i` alone (R81). -/
theorem exists_matching_row_iff (d : Word) (i : Instr) :
    (∃ r ∈ opcodeTable, r.instr = i ∧ r.mask = 0xFFFFFFFF#32 ∧ d &&& r.mask = r.pattern) ↔ d = encode i := by
  constructor
  · rintro ⟨r, hr, rfl, hmask, hfits⟩
    rw [hmask, and_wordMask] at hfits
    rw [hfits, mem_opcodeTable_iff.mp hr]
  · rintro rfl
    exact ⟨⟨0xFFFFFFFF#32, encode i, i⟩, mem_opcodeTable_iff.mpr rfl, rfl, rfl, and_wordMask _⟩

/-- Settles O1: each form of validity says that the word is a command word, one of 1 to 9. -/
theorem validCommandWords : Obligations.ValidCommandWords := by
  intro d
  have hvalid : (∃ i, decode d = .ok i) ↔ 1 ≤ d.toNat ∧ d.toNat ≤ 9 := by
    simp only [decode_eq_ok_iff, exists_eq_encode_iff]
  refine ⟨?_, hvalid, fun i => decode_eq_ok_iff.trans (exists_matching_row_iff d i).symm⟩
  rw [hvalid, mbzField_eq_zero_iff, opField_toNat]
  omega

theorem ordinal_eq_toInt (s : State) : s.ordinal = s.idx.toInt :=
  (BitVec.toInt_eq_msb_cond s.idx).symm

/-- Settles O35, from the library's reading of a word as two's complement. -/
theorem signedOrdinal : Obligations.SignedOrdinal := by
  intro s
  rw [ordinal_eq_toInt]
  exact ⟨rfl, BitVec.le_toInt s.idx, BitVec.toInt_lt, congrArg BitVec.toInt, congrArg BitVec.toInt⟩

end Sys2Proof.Proofs
end

/-! # The BitOps commands (R100 to R107) -/

section
namespace Sys2Proof.Proofs
open Sys2Proof.Machine

/-! The values of the bit primitives: their bounds, the cases that change nothing, and the laws of R107. -/

theorem gb_eq_ite (v b : Nat) : gb v b = if v.testBit b then 1 else 0 := by
  rw [gb_eq_toNat]
  cases v.testBit b <;> rfl

/-- A bit at or above the length, or at or above the width of the register, is 0 (R100). -/
theorem testBit_eq_false_of_beyond {v width b : Nat} (hv : v < 2 ^ width) (hb : len v ≤ b ∨ width ≤ b) :
    v.testBit b = false := by
  have hlen : len v ≤ width := (len_le_iff v width).mpr hv
  exact testBit_of_len_le (by omega)

theorem gb_lt_two_pow {width : Nat} (hw : 0 < width) (v b : Nat) : gb v b < 2 ^ width := by
  rw [gb_eq_toNat]
  exact (Bool.toNat_lt _).trans_le (Nat.le_self_pow hw.ne' 2)

theorem setBitValue_lt {v width b : Nat} (hv : v < 2 ^ width) (hb : b < width) : setBitValue v b < 2 ^ width := by
  have hbit : 1 <<< b < 2 ^ width := by
    rw [Nat.one_shiftLeft]
    exact Nat.pow_lt_pow_right Nat.one_lt_two hb
  exact Nat.or_lt_two_pow hv hbit

theorem clearBitValue_lt {v width : Nat} (hv : v < 2 ^ width) (b : Nat) : clearBitValue v b < 2 ^ width := by
  refine Nat.lt_pow_two_of_testBit _ fun j hj => ?_
  rw [testBit_clearBitValue, testBit_eq_false_of_beyond hv (.inr hj), Bool.false_and]

/-- Where the top bit of the register is 0, no bit is shifted out (R104). -/
theorem shiftInValue_lt {v width : Nat} (hw : 0 < width) (hv : v < 2 ^ width) (htop : v.testBit (width - 1) = false)
    (b src : Nat) : shiftInValue v b src < 2 ^ width := by
  refine Nat.lt_pow_two_of_testBit _ fun j hj => ?_
  obtain ⟨k, rfl⟩ : ∃ k, j = k + 1 := ⟨j - 1, by omega⟩
  rw [testBit_shiftInValue_succ]
  obtain rfl | hk : k = width - 1 ∨ width ≤ k := by omega
  · exact htop
  · exact testBit_eq_false_of_beyond hv (.inr hk)

theorem setBitValue_of_testBit {v b : Nat} (h : v.testBit b = true) : setBitValue v b = v := by
  refine Nat.eq_of_testBit_eq fun j => ?_
  rw [testBit_setBitValue]
  by_cases hj : b = j
  · simp [← hj, h]
  · simp [hj]

theorem setBitValue_zero (b : Nat) : setBitValue 0 b = 2 ^ b := by
  rw [setBitValue, Nat.zero_or, Nat.one_shiftLeft]

theorem clearBitValue_of_not_testBit {v b : Nat} (h : v.testBit b = false) : clearBitValue v b = v := by
  simp [clearBitValue, gb_eq_one_iff, h]

theorem xorIfMsbSetValue_of_testBit {v b : Nat} (h : v.testBit b = true) (operand : Nat) :
    xorIfMsbSetValue v b operand = v ^^^ operand :=
  if_pos ((gb_eq_one_iff v b).mpr h)

theorem xorIfMsbSetValue_of_not_testBit {v b : Nat} (h : v.testBit b = false) (operand : Nat) :
    xorIfMsbSetValue v b operand = v := by
  simp [xorIfMsbSetValue, gb_eq_one_iff, h]

theorem gb_setBitValue_same (v b : Nat) : gb (setBitValue v b) b = 1 := by
  simp [gb_eq_one_iff, testBit_setBitValue]

theorem gb_clearBitValue_same (v b : Nat) : gb (clearBitValue v b) b = 0 := by
  simp [gb_eq_zero_iff, testBit_clearBitValue]

theorem clearBitValue_setBitValue (v b : Nat) : clearBitValue (setBitValue v b) b = clearBitValue v b := by
  refine Nat.eq_of_testBit_eq fun j => ?_
  simp only [testBit_clearBitValue, testBit_setBitValue]
  by_cases hj : b = j <;> simp [hj]

theorem setBitValue_clearBitValue (v b : Nat) : setBitValue (clearBitValue v b) b = setBitValue v b := by
  refine Nat.eq_of_testBit_eq fun j => ?_
  simp only [testBit_clearBitValue, testBit_setBitValue]
  by_cases hj : b = j <;> simp [hj]

theorem shiftInValue_shiftRight_one (v b src : Nat) : shiftInValue v b src >>> 1 = v := by
  refine Nat.eq_of_testBit_eq fun j => ?_
  rw [Nat.testBit_shiftRight, Nat.add_comm, testBit_shiftInValue_succ]

theorem shiftInValue_and_one (v b src : Nat) : shiftInValue v b src &&& 1 = gb src b := by
  have hlow : shiftInValue v b src &&& 1 = gb (shiftInValue v b src) 0 := rfl
  rw [hlow, gb_eq_toNat, testBit_shiftInValue_zero, ← gb_eq_toNat]

/-- XOR_IF_MSB_SET undoes itself where the operand leaves the tested bit alone (R107). -/
theorem xorIfMsbSetValue_twice {operand b : Nat} (h : operand.testBit b = false) (v : Nat) :
    xorIfMsbSetValue (xorIfMsbSetValue v b operand) b operand = v := by
  refine Nat.eq_of_testBit_eq fun j => ?_
  simp [testBit_xorIfMsbSetValue, h]

/-! What each command answers, case by case of its checks. -/

section Answers
variable {b : Int} (width opa opb : Nat)

/-- The ordinal check is the first check of every BitOps command (R100). -/
theorem answerOf_bitOp_of_neg {i : Instr} (hi : Instr.isBitOp i = true) (hb : b < 0) :
    answerOf i width opa opb b = .err .invalidArgument := by
  cases i with
  | getBit => rw [answerOf, answerGetBit, checkOrdinal_neg hb]
  | setBit => rw [answerOf, answerSetBit, checkOrdinal_neg hb]
  | clearBit => rw [answerOf, answerClearBit, checkOrdinal_neg hb]
  | shiftIn => rw [answerOf, answerShiftIn, checkOrdinal_neg hb]
  | xorIfMsbSet => rw [answerOf, answerXorIfMsbSet, checkOrdinal_neg hb]
  | remainder | pad | encode | decode => exact absurd hi (by decide)

theorem answerOf_getBit (hb : 0 ≤ b) : answerOf .getBit width opa opb b = .ok (gb opa b.toNat) := by
  rw [answerOf, answerGetBit, checkOrdinal_nonneg hb]

theorem answerOf_clearBit (hb : 0 ≤ b) : answerOf .clearBit width opa opb b = .ok (clearBitValue opa b.toNat) := by
  rw [answerOf, answerClearBit, checkOrdinal_nonneg hb]

theorem answerOf_xorIfMsbSet (hb : 0 ≤ b) :
    answerOf .xorIfMsbSet width opa opb b = .ok (xorIfMsbSetValue opa b.toNat opb) := by
  rw [answerOf, answerXorIfMsbSet, checkOrdinal_nonneg hb]

theorem answerOf_setBit (hb : 0 ≤ b) :
    answerOf .setBit width opa opb b =
      if width ≤ b.toNat then .err .widthOverflow else .ok (setBitValue opa b.toNat) := by
  simp [answerOf, answerSetBit, checkOrdinal_nonneg hb, checkWidth]

theorem answerOf_shiftIn (hb : 0 ≤ b) :
    answerOf .shiftIn width opa opb b =
      if opa.testBit (width - 1) then .err .widthOverflow else .ok (shiftInValue opa b.toNat opb) := by
  simp [answerOf, answerShiftIn, checkOrdinal_nonneg hb, checkWidth, gb_eq_one_iff]

end Answers

/-! A completion, by the answer that the command gives (R46). -/

theorem completesWith_complete {s : State} {a : Answer} {v : Nat} (hs : s.Wf) (ha : a = .ok v) (hv : v < 2 ^ s.width) :
    CompletesWith s (s.complete a) v := by
  subst ha
  exact completesWith_completeOk hs hv

theorem failsWith_complete {s : State} {a : Answer} {c : CmdError} (ha : a = .err c) : FailsWith s (s.complete a) c := by
  subst ha
  exact failsWith_completeErr s c

theorem width_pos {s : State} (hs : s.Wf) : 0 < s.width := by
  obtain ⟨-, hwide, -⟩ := (Params.wf_iff s.params).mp hs.1
  exact Nat.lt_of_lt_of_le (by decide) hwide

/-- Settles O37: the answer is `gb`, and a bit beyond the operand is 0. -/
theorem getBitCompletes : Obligations.GetBitCompletes := by
  refine ⟨decode_encode .getBit, fun s hs => ⟨_, exec_eq_complete _ _, ?_, ?_, ?_⟩⟩
  · intro hneg
    exact failsWith_complete (answerOf_bitOp_of_neg _ _ _ rfl hneg)
  · intro hb
    rw [← gb_eq_ite]
    exact completesWith_complete hs (answerOf_getBit _ _ _ hb) (gb_lt_two_pow (width_pos hs) _ _)
  · intro hb hbeyond
    have hzero : gb s.opaValue s.ordinal.toNat = 0 := by
      rw [gb_eq_zero_iff]
      rcases hbeyond with hlen | hwide | hopa
      · exact testBit_of_len_le hlen
      · exact testBit_eq_false_of_beyond hs.opa_lt (.inr hwide)
      · rw [hopa, Nat.zero_testBit]
    have hanswer := answerOf_getBit s.width s.opaValue s.opbValue hb
    rw [hzero] at hanswer
    exact completesWith_complete hs hanswer (Nat.two_pow_pos _)

/-- Settles O38: below W the answer is `setBitValue`, which fits. -/
theorem setBitCompletes : Obligations.SetBitCompletes := by
  refine ⟨decode_encode .setBit, fun s hs => ⟨_, exec_eq_complete _ _, ?_, ?_, ?_⟩⟩
  · intro hneg
    exact failsWith_complete (answerOf_bitOp_of_neg _ _ _ rfl hneg)
  · intro hle
    have hanswer := answerOf_setBit s.width s.opaValue s.opbValue (b := s.ordinal) (by omega)
    rw [if_pos (by omega)] at hanswer
    exact failsWith_complete hanswer
  · intro hb hlt
    have hanswer := answerOf_setBit s.width s.opaValue s.opbValue hb
    rw [if_neg (by omega)] at hanswer
    refine ⟨_, completesWith_complete hs hanswer (setBitValue_lt hs.opa_lt (by omega)), fun j => ?_,
      setBitValue_of_testBit, fun hzero => ?_⟩
    · rw [testBit_setBitValue, BEq.comm (a := j)]
      rfl
    · rw [hzero, setBitValue_zero]

/-- Settles O39: the answer is `clearBitValue`, which is OPA where the bit is beyond the operand. -/
theorem clearBitCompletes : Obligations.ClearBitCompletes := by
  refine ⟨decode_encode .clearBit, fun s hs => ⟨_, exec_eq_complete _ _, ?_, ?_⟩⟩
  · intro hneg
    exact failsWith_complete (answerOf_bitOp_of_neg _ _ _ rfl hneg)
  · intro hb
    refine ⟨_, completesWith_complete hs (answerOf_clearBit _ _ _ hb) (clearBitValue_lt hs.opa_lt _), fun j => ?_,
      fun hbeyond => ?_⟩
    · rw [testBit_clearBitValue, bne, BEq.comm (a := j)]
      rfl
    · exact clearBitValue_of_not_testBit (testBit_eq_false_of_beyond hs.opa_lt hbeyond)

/-- Settles O40: where the top bit of OPA is 0 the answer is `shiftInValue`, which fits. -/
theorem shiftInCompletes : Obligations.ShiftInCompletes := by
  refine ⟨decode_encode .shiftIn, fun s hs => ⟨_, exec_eq_complete _ _, ?_, ?_, ?_⟩⟩
  · intro hneg
    exact failsWith_complete (answerOf_bitOp_of_neg _ _ _ rfl hneg)
  · intro hb htop
    have hanswer := answerOf_shiftIn s.width s.opaValue s.opbValue hb
    rw [if_pos htop] at hanswer
    exact failsWith_complete hanswer
  · intro hb htop
    have hanswer := answerOf_shiftIn s.width s.opaValue s.opbValue hb
    rw [if_neg (by simp [htop])] at hanswer
    have hfits := shiftInValue_lt (width_pos hs) hs.opa_lt htop s.ordinal.toNat s.opbValue
    refine ⟨_, completesWith_complete hs hanswer hfits,
      testBit_shiftInValue_zero _ _ _, testBit_shiftInValue_succ _ _ _, fun hbeyond => ?_⟩
    rw [shiftInValue_eq, testBit_eq_false_of_beyond hs.opb_lt hbeyond, Bool.toNat_false, Nat.add_zero]

/-- Settles O41, by the two values of the tested bit. -/
theorem xorIfMsbSetCompletes : Obligations.XorIfMsbSetCompletes := by
  refine ⟨decode_encode .xorIfMsbSet, fun s hs => ⟨_, exec_eq_complete _ _, ?_, ?_, ?_⟩⟩
  · intro hneg
    exact failsWith_complete (answerOf_bitOp_of_neg _ _ _ rfl hneg)
  · intro hb hset
    have hanswer := answerOf_xorIfMsbSet s.width s.opaValue s.opbValue hb
    rw [xorIfMsbSetValue_of_testBit hset] at hanswer
    refine ⟨_, completesWith_complete hs hanswer (Nat.xor_lt_two_pow hs.opa_lt hs.opb_lt), Nat.testBit_xor _ _,
      fun heq => ?_⟩
    rw [heq, Nat.xor_self]
  · intro hb hclear
    have hanswer := answerOf_xorIfMsbSet s.width s.opaValue s.opbValue hb
    rw [xorIfMsbSetValue_of_not_testBit hclear] at hanswer
    exact completesWith_complete hs hanswer hs.opa_lt

/-- Settles O42: the answers are the primitives' values, and each law is one of the primitives. -/
theorem bitOpLaws : Obligations.BitOpLaws := by
  intro width v b src operand _ hb
  have hnonneg : (0 : Int) ≤ b := Int.natCast_nonneg b
  refine ⟨answerOf_getBit _ _ _ hnonneg, (answerOf_setBit _ _ _ hnonneg).trans (if_neg (Nat.not_le.mpr hb)),
    answerOf_clearBit _ _ _ hnonneg, answerOf_xorIfMsbSet _ _ _ hnonneg, gb_setBitValue_same v b,
    gb_clearBitValue_same v b, clearBitValue_setBitValue v b, setBitValue_clearBitValue v b, ?_, ?_⟩
  · intro htop
    rw [gb_eq_zero_iff] at htop
    exact ⟨(answerOf_shiftIn _ _ _ hnonneg).trans (if_neg (by simp [htop])), shiftInValue_shiftRight_one v b src,
      shiftInValue_and_one v b src⟩
  · intro hclear
    rw [gb_eq_zero_iff] at hclear
    exact xorIfMsbSetValue_twice hclear v

end Sys2Proof.Proofs
end

/-! # The division engine and REMAINDER (R140 to R147) -/

section
namespace Sys2Proof.Proofs
open Sys2Proof.Machine

/-! The product over GF(2): multiplication by x, and the top bit (R15). -/

theorem clmulUpTo_shiftLeft_one (q g n : Nat) : clmulUpTo (q <<< 1) g (n + 1) = clmulUpTo q g n <<< 1 := by
  induction n with
  | zero => simp [clmulUpTo]
  | succ n ih =>
    have hbit : (q <<< 1).testBit (n + 1) = q.testBit n := by simp
    rw [clmulUpTo, hbit, ih, Nat.shiftLeft_add g n 1, clmulUpTo]
    cases q.testBit n with
    | false => rfl
    | true => exact Nat.shiftLeft_xor_distrib.symm

theorem clmul_shiftLeft_one (q g : Nat) : clmul (q <<< 1) g = clmul q g <<< 1 := by
  have hlen : len (q <<< 1) ≤ len q + 1 := by
    have hq : q < 2 ^ len q := lt_two_pow_len q
    rw [len_le_iff, Nat.shiftLeft_eq, pow_succ]
    omega
  rw [← clmulUpTo_of_len_le hlen, clmulUpTo_shiftLeft_one, clmul]

theorem clmulUpTo_lt (q : Nat) {g : Nat} (hg : g ≠ 0) (n : Nat) : clmulUpTo q g n < 2 ^ (n + (len g - 1)) := by
  induction n with
  | zero => exact Nat.two_pow_pos _
  | succ n ih =>
    have hlen : 0 < len g := (len_pos_iff g).mpr hg
    have hlow : clmulUpTo q g n < 2 ^ (n + 1 + (len g - 1)) :=
      ih.trans_le (Nat.pow_le_pow_right Nat.two_pos (by omega))
    have hterm : g <<< n < 2 ^ (n + 1 + (len g - 1)) := by
      have hg' : len g + n = n + 1 + (len g - 1) := by omega
      rw [← hg', Nat.shiftLeft_eq, pow_add]
      exact Nat.mul_lt_mul_of_pos_right (lt_two_pow_len g) (Nat.two_pow_pos n)
    rw [clmulUpTo]
    split
    · exact Nat.xor_lt_two_pow hlow hterm
    · exact hlow

/-- The top bit of a product stands at the sum of the factors' top ordinals: degrees add. -/
theorem testBit_clmul_top {q g : Nat} (hq : q ≠ 0) (hg : g ≠ 0) :
    (clmul q g).testBit (len q - 1 + (len g - 1)) = true := by
  have hlen : len q = len q - 1 + 1 := by
    have := (len_pos_iff q).mpr hq
    omega
  have hlow := Nat.testBit_lt_two_pow (clmulUpTo_lt q hg (len q - 1))
  rw [clmul, hlen, clmulUpTo, if_pos (testBit_len_sub_one hq)]
  simp [hlow, testBit_len_sub_one hg]

/-- The one multiple of g that is shorter than g is 0. -/
theorem eq_zero_of_len_clmul_lt {q g : Nat} (h : len (clmul q g) < len g) : q = 0 := by
  by_contra hq
  have hg : g ≠ 0 := (len_pos_iff g).mp (by omega)
  have htop := lt_len_of_testBit (testBit_clmul_top hq hg)
  omega

/-! Numbers that differ by a multiple of the generator. -/

/-- `a` and `r` differ by a multiple of `gen` over GF(2): the first half of R146. -/
def CongruentMod (gen a r : Nat) : Prop := ∃ q, a = clmul q gen ^^^ r

theorem isRemainder_iff {a gen r : Nat} : IsRemainder a gen r ↔ len r < len gen ∧ CongruentMod gen a r := Iff.rfl

theorem CongruentMod.refl (gen a : Nat) : CongruentMod gen a a :=
  ⟨0, by rw [clmul_zero, Nat.zero_xor]⟩

/-- Subtracting the generator, or not, stays in the class (R143 step (1), R144). -/
theorem CongruentMod.xorIfMsbSetValue {gen a r : Nat} (h : CongruentMod gen a r) (b : Nat) :
    CongruentMod gen a (xorIfMsbSetValue r b gen) := by
  obtain ⟨q, rfl⟩ := h
  cases hb : r.testBit b with
  | false => exact ⟨q, by rw [xorIfMsbSetValue_of_not_testBit hb]⟩
  | true =>
    refine ⟨q ^^^ 1, ?_⟩
    rw [xorIfMsbSetValue_of_testBit hb, clmul_xor, clmul_one, Nat.xor_comm r gen, Nat.xor_assoc,
      Nat.xor_xor_cancel_left]

theorem shiftInValue_xor (v r b src : Nat) : shiftInValue (v ^^^ r) b src = v <<< 1 ^^^ shiftInValue r b src := by
  refine Nat.eq_of_testBit_eq fun j => ?_
  cases j with
  | zero =>
    have htwice : (v <<< 1).testBit 0 = false := by simp
    rw [Nat.testBit_xor, testBit_shiftInValue_zero, testBit_shiftInValue_zero, htwice, Bool.false_xor]
  | succ j => simp [testBit_shiftInValue_succ]

/-- Bringing the same bit in below both members keeps the class (R143 step (2)). -/
theorem CongruentMod.shiftInValue {gen a r : Nat} (h : CongruentMod gen a r) (b src : Nat) :
    CongruentMod gen (shiftInValue a b src) (shiftInValue r b src) := by
  obtain ⟨q, rfl⟩ := h
  exact ⟨q <<< 1, by rw [shiftInValue_xor, clmul_shiftLeft_one]⟩

/-- Two remainders of one dividend differ by a multiple of the generator shorter than it, so by 0 (R146). -/
theorem isRemainder_unique {a gen r r' : Nat} (h : IsRemainder a gen r) (h' : IsRemainder a gen r') : r' = r := by
  obtain ⟨hr, q, hq⟩ := h
  obtain ⟨hr', q', hq'⟩ := h'
  have hdiff : clmul (q ^^^ q') gen = r ^^^ r' := by
    calc clmul (q ^^^ q') gen = clmul q gen ^^^ clmul q' gen := clmul_xor q q' gen
      _ = (a ^^^ r) ^^^ (a ^^^ r') := by
        nth_rw 1 [hq]
        rw [hq', Nat.xor_xor_cancel_right, Nat.xor_xor_cancel_right]
      _ = r ^^^ r' := by rw [Nat.xor_comm a r, Nat.xor_assoc, Nat.xor_xor_cancel_left]
  have hshort : len (clmul (q ^^^ q') gen) < len gen := by
    rw [hdiff]
    have hlt : r ^^^ r' < 2 ^ (len gen - 1) :=
      Nat.xor_lt_two_pow ((len_le_iff _ _).mp (by omega)) ((len_le_iff _ _).mp (by omega))
    have := (len_le_iff _ _).mpr hlt
    omega
  rw [eq_zero_of_len_clmul_lt hshort, clmul_zero] at hdiff
  exact (Nat.eq_of_xor_eq_zero hdiff.symm).symm

/-! One pass of the loop, where `reg` has at most `g` bits (R143, R147). -/

theorem ne_zero_of_two_le_len {gen : Nat} (h : 2 ≤ len gen) : gen ≠ 0 :=
  (len_pos_iff gen).mp (by omega)

theorem xorGenerator_lt {reg gen : Nat} (hgen : gen ≠ 0) (hreg : reg < 2 ^ len gen) :
    xorIfMsbSetValue reg (len gen - 1) gen < 2 ^ (len gen - 1) := by
  have hlen : len gen - 1 + 1 = len gen := Nat.succ_pred_eq_of_pos ((len_pos_iff gen).mpr hgen)
  refine xorIfMsbSetValue_lt ?_ ?_ (testBit_len_sub_one hgen)
  · rwa [hlen]
  · rw [hlen]
    exact lt_two_pow_len gen

theorem shiftInValue_lt_two_pow_succ {v n : Nat} (hv : v < 2 ^ n) (b src : Nat) :
    shiftInValue v b src < 2 ^ (n + 1) := by
  have hbit := Bool.toNat_lt (src.testBit b)
  rw [shiftInValue_eq, pow_succ]
  omega

/-- What `reg` holds after steps (1) and (2) of a pass (R143). -/
def shiftedReg (a gen : Nat) (d : Datapath) : Nat :=
  shiftInValue (xorIfMsbSetValue d.reg (len gen - 1) gen) d.shift.toNat a

theorem shiftedReg_lt {gen : Nat} (hgen : gen ≠ 0) {d : Datapath} (hreg : d.reg < 2 ^ len gen) (a : Nat) :
    shiftedReg a gen d < 2 ^ len gen := by
  have h := shiftInValue_lt_two_pow_succ (xorGenerator_lt hgen hreg) d.shift.toNat a
  rwa [Nat.sub_add_cancel ((len_pos_iff gen).mpr hgen)] at h

/-- The mask of step (3) finds its bit clear (R147). -/
theorem pass_reg {gen : Nat} (hgen : gen ≠ 0) {d : Datapath} (hg : d.g = len gen) (hreg : d.reg < 2 ^ len gen)
    (a : Nat) : (d.pass a gen).reg = shiftedReg a gen d := by
  rw [Datapath.pass, hg]
  exact clearBitValue_of_lt (shiftedReg_lt hgen hreg a)

/-! The loop: `reg` keeps its length, and stays congruent to the dividend bits brought in so far (R143). -/

theorem len_shiftRight (v n : Nat) : len (v >>> n) = len v - n := by
  refine eq_of_forall_ge_iff fun k => ?_
  rw [len_le_iff, Nat.shiftRight_eq_div_pow, Nat.div_lt_iff_lt_mul (Nat.two_pow_pos n), ← pow_add, ← len_le_iff,
    Nat.sub_le_iff_le_add]

/-- The seed takes the top bits of the dividend, as many as the generator has (R142). -/
theorem datapathAfter_zero_reg (a gen : Nat) : (datapathAfter a gen 0).reg = a >>> (len a - len gen) :=
  Datapath.seed_reg a gen

theorem datapathAfter_reg_lt {gen : Nat} (hgen : gen ≠ 0) (a k : Nat) :
    (datapathAfter a gen k).reg < 2 ^ len gen := by
  induction k with
  | zero =>
    rw [datapathAfter_zero_reg, ← len_le_iff, len_shiftRight]
    omega
  | succ k ih =>
    rw [datapathAfter, pass_reg hgen (datapathAfter_g a gen k) ih]
    exact shiftedReg_lt hgen ih a

theorem datapathAfter_succ_reg {gen : Nat} (hgen : gen ≠ 0) (a k : Nat) :
    (datapathAfter a gen (k + 1)).reg = shiftedReg a gen (datapathAfter a gen k) :=
  pass_reg hgen (datapathAfter_g a gen k) (datapathAfter_reg_lt hgen a k) a

/-- Shifting bit n of `a` in below the bits above it gives the bits from n up. -/
theorem shiftInValue_shiftRight_succ (a n : Nat) : shiftInValue (a >>> (n + 1)) n a = a >>> n := by
  refine Nat.eq_of_testBit_eq fun j => ?_
  cases j with
  | zero => rw [testBit_shiftInValue_zero, Nat.testBit_shiftRight, Nat.add_zero]
  | succ j => simp [testBit_shiftInValue_succ, Nat.add_right_comm, Nat.add_assoc]

/-- The loop invariant: with n dividend bits left, `reg` is congruent to the bits of the dividend above them. -/
theorem datapathAfter_congruent {gen : Nat} (hgen : gen ≠ 0) (a : Nat) {k n : Nat} (hk : k + n = len a - len gen) :
    CongruentMod gen (a >>> n) (datapathAfter a gen k).reg := by
  induction k generalizing n with
  | zero =>
    obtain rfl : n = len a - len gen := by omega
    rw [datapathAfter_zero_reg]
    exact .refl gen _
  | succ k ih =>
    have hshift : (datapathAfter a gen k).shift.toNat = n := by
      rw [datapathAfter_shift]
      omega
    have hprev := ih (n := n + 1) (by omega)
    rw [datapathAfter_succ_reg hgen, shiftedReg, hshift, ← shiftInValue_shiftRight_succ]
    exact (hprev.xorIfMsbSetValue _).shiftInValue n a

theorem finish_datapathAfter {a gen k : Nat} (hk : k ≤ len a - len gen) :
    (datapathAfter a gen k).finish a gen = rem a gen := by
  induction k with
  | zero => rfl
  | succ k ih =>
    rw [datapathAfter, Datapath.finish_pass, ih (by omega)]
    rw [datapathAfter_shift]
    omega

/-- `Rem` is the final step on the `reg` that the last pass leaves (R144). -/
theorem rem_eq_xorIfMsbSetValue (a gen : Nat) :
    rem a gen = xorIfMsbSetValue (datapathAfter a gen (len a - len gen)).reg (len gen - 1) gen := by
  have hdone : (datapathAfter a gen (len a - len gen)).shift < 0 := by
    rw [datapathAfter_shift]
    omega
  rw [← finish_datapathAfter le_rfl, Datapath.finish, Datapath.loop_of_neg a gen _ hdone, datapathAfter_g]

/-! The remainder. -/

theorem rem_lt {gen : Nat} (hgen : gen ≠ 0) (a : Nat) : rem a gen < 2 ^ (len gen - 1) := by
  rw [rem_eq_xorIfMsbSetValue]
  exact xorGenerator_lt hgen (datapathAfter_reg_lt hgen a _)

theorem len_rem_lt {gen : Nat} (hgen : gen ≠ 0) (a : Nat) : len (rem a gen) < len gen := by
  have hlen : len (rem a gen) ≤ len gen - 1 := (len_le_iff _ _).mpr (rem_lt hgen a)
  have hpos : 0 < len gen := (len_pos_iff gen).mpr hgen
  omega

theorem isRemainder_rem {gen : Nat} (hgen : gen ≠ 0) (a : Nat) : IsRemainder a gen (rem a gen) := by
  have hloop : CongruentMod gen a (datapathAfter a gen (len a - len gen)).reg :=
    datapathAfter_congruent hgen a (n := 0) rfl
  rw [isRemainder_iff]
  refine ⟨len_rem_lt hgen a, ?_⟩
  rw [rem_eq_xorIfMsbSetValue]
  exact hloop.xorIfMsbSetValue _

theorem answerOf_remainder_of_short {opb : Nat} (h : len opb < 2) (width opa : Nat) (b : Int) :
    answerOf .remainder width opa opb b = .err .invalidArgument :=
  checkGenerator_short h _

theorem answerOf_remainder {opb : Nat} (h : 2 ≤ len opb) (width opa : Nat) (b : Int) :
    answerOf .remainder width opa opb b = .ok (rem opa opb) :=
  checkGenerator_ok h _

/-- Settles O44: the final step clears the generator's top bit, which the generator itself has. -/
theorem remainderBound : Obligations.RemainderBound := by
  intro a gen h
  have hgen := ne_zero_of_two_le_len h
  have hlow := rem_lt hgen a
  have hhigh := two_pow_len_le hgen
  exact ⟨len_rem_lt hgen a, hlow, hhigh, hlow.trans_le hhigh⟩

/-- Settles O43: the loop invariant gives the remainder, and no other number is one. -/
theorem remainderIsPolynomialRemainder : Obligations.RemainderIsPolynomialRemainder := by
  refine fun s hs => ⟨_, exec_eq_complete _ _, fun hshort => ?_, fun h => ?_⟩
  · exact failsWith_complete (answerOf_remainder_of_short hshort _ _ _)
  · have hrem := isRemainder_rem (ne_zero_of_two_le_len h) s.opaValue
    obtain ⟨-, -, -, hbelow⟩ := remainderBound s.opaValue s.opbValue h
    exact ⟨_, completesWith_complete hs (answerOf_remainder h _ _ _) (hbelow.trans hs.opb_lt), hrem,
      fun _ => isRemainder_unique hrem⟩

/-- Settles O45: step (1) clears bit g - 1, so step (2) never reaches bit g, which step (3) clears. -/
theorem maskNeverChangesReg : Obligations.MaskNeverChangesReg := by
  intro a gen k h hk
  have hgen := ne_zero_of_two_le_len h
  have hreg := datapathAfter_reg_lt hgen a k
  have hshifted := shiftedReg_lt hgen hreg a
  refine ⟨?_, (len_le_iff _ _).mpr hreg, xorGenerator_lt hgen hreg, hshifted, clearBitValue_of_lt hshifted,
    datapathAfter_succ_reg hgen a k⟩
  rintro rfl
  rw [datapathAfter_zero_reg, len_shiftRight]
  omega

end Sys2Proof.Proofs
end

/-! # The codec commands PAD and ENCODE (R170, R172, R180) -/

section
namespace Sys2Proof.Proofs
open Sys2Proof.Machine

/-! A number shifted left by n with another below `2^n` added: no bit in common, and the length of the sum. -/

theorem shiftLeft_and_eq_zero_of_lt {n r : Nat} (hr : r < 2 ^ n) (a : Nat) : a <<< n &&& r = 0 := by
  refine Nat.eq_of_testBit_eq fun j => ?_
  rw [Nat.testBit_and, Nat.testBit_shiftLeft, Nat.zero_testBit]
  by_cases hj : n ≤ j
  · rw [testBit_eq_false_of_beyond hr (.inr hj), Bool.and_false]
  · simp [hj]

theorem or_eq_xor_of_and_eq_zero {x y : Nat} (h : x &&& y = 0) : x ||| y = x ^^^ y := by
  refine Nat.eq_of_testBit_eq fun j => ?_
  have hj : (x.testBit j && y.testBit j) = false := by rw [← Nat.testBit_and, h, Nat.zero_testBit]
  rw [Nat.testBit_or, Nat.testBit_xor]
  cases hx : x.testBit j with
  | false => simp
  | true =>
    rw [hx, Bool.true_and] at hj
    rw [hj]
    rfl

theorem shiftLeft_add_shiftRight_of_lt {n r : Nat} (hr : r < 2 ^ n) (a : Nat) : (a <<< n + r) >>> n = a := by
  rw [Nat.shiftLeft_add_eq_or_of_lt hr, Nat.shiftRight_or_distrib, Nat.shiftLeft_shiftRight,
    Nat.shiftRight_eq_zero r n hr, Nat.or_zero]

theorem len_shiftLeft_add {a n r : Nat} (ha : a ≠ 0) (hr : r < 2 ^ n) : len (a <<< n + r) = len a + n := by
  have hhigh : len (a <<< n + r) - n = len a := by rw [← len_shiftRight, shiftLeft_add_shiftRight_of_lt hr]
  have hpos : 0 < len a := (len_pos_iff a).mpr ha
  omega

/-! The values of PAD and ENCODE, and the width check. -/

theorem padValue_eq_mul (a gen : Nat) : padValue a gen = a * 2 ^ (len gen - 1) :=
  Nat.shiftLeft_eq _ _

theorem padValue_zero (gen : Nat) : padValue 0 gen = 0 :=
  Nat.zero_shiftLeft _

/-- A dividend shorter than the generator is its own remainder (R150). -/
theorem rem_of_len_lt {a gen : Nat} (h : len a < len gen) : rem a gen = a := by
  have hgen : gen ≠ 0 := (len_pos_iff gen).mp (by omega)
  exact isRemainder_unique (isRemainder_iff.mpr ⟨h, .refl gen a⟩) (isRemainder_rem hgen a)

theorem encodeValue_zero {gen : Nat} (hgen : gen ≠ 0) : encodeValue 0 gen = 0 := by
  have hlen : len 0 < len gen := (len_pos_iff gen).mpr hgen
  rw [encodeValue, padValue_zero, rem_of_len_lt hlen]

theorem len_padValue {a gen : Nat} (ha : a ≠ 0) (hgen : gen ≠ 0) : len (padValue a gen) = len a + len gen - 1 :=
  (len_shiftLeft_add ha (Nat.two_pow_pos _)).trans (Nat.add_sub_assoc ((len_pos_iff gen).mpr hgen) _).symm

theorem len_encodeValue {a gen : Nat} (ha : a ≠ 0) (hgen : gen ≠ 0) :
    len (encodeValue a gen) = len a + len gen - 1 :=
  (len_shiftLeft_add ha (rem_lt hgen _)).trans (Nat.add_sub_assoc ((len_pos_iff gen).mpr hgen) _).symm

theorem padOverflows_iff (width a gen : Nat) :
    padOverflows width a gen = true ↔ a ≠ 0 ∧ width < len a + len gen - 1 := by
  rw [padOverflows, Bool.and_eq_true, decide_eq_true_eq, decide_eq_true_eq, len_pos_iff]

/-- The width check fails exactly where a result of length `s + g - 1`, or 0 for OPA = 0, does not fit (R180). -/
theorem padOverflows_iff_two_pow_le {a gen v : Nat} (hzero : a = 0 → v = 0)
    (hlen : a ≠ 0 → len v = len a + len gen - 1) (width : Nat) :
    padOverflows width a gen = true ↔ 2 ^ width ≤ v := by
  rw [padOverflows_iff, ← lt_len_iff]
  by_cases ha : a = 0
  · simp [ha, hzero ha]
  · simp [ha, hlen ha]

theorem padOverflows_iff_padValue {gen : Nat} (hgen : gen ≠ 0) (width a : Nat) :
    padOverflows width a gen = true ↔ 2 ^ width ≤ padValue a gen :=
  padOverflows_iff_two_pow_le (fun ha => ha ▸ padValue_zero gen) (fun ha => len_padValue ha hgen) width

theorem padOverflows_iff_encodeValue {gen : Nat} (hgen : gen ≠ 0) (width a : Nat) :
    padOverflows width a gen = true ↔ 2 ^ width ≤ encodeValue a gen :=
  padOverflows_iff_two_pow_le (fun ha => ha ▸ encodeValue_zero hgen) (fun ha => len_encodeValue ha hgen) width

/-! What PAD answers, case by case of its checks. -/

theorem answerOf_pad_of_short {opb : Nat} (h : len opb < 2) (width opa : Nat) (b : Int) :
    answerOf .pad width opa opb b = .err .invalidArgument :=
  checkGenerator_short h _

theorem answerOf_pad {opb : Nat} (h : 2 ≤ len opb) (width opa : Nat) (b : Int) :
    answerOf .pad width opa opb b =
      if padOverflows width opa opb then .err .widthOverflow else .ok (padValue opa opb) :=
  checkGenerator_ok h _

/-- Settles O49, by the two checks of PAD: where both pass, the padded value fits. -/
theorem padCompletes : Obligations.PadCompletes := by
  refine ⟨decode_encode .pad, fun s hs => ⟨_, exec_eq_complete _ _, fun hshort => ?_, fun h hopa hwide => ?_,
    fun h hfits => ?_⟩⟩
  · exact failsWith_complete (answerOf_pad_of_short hshort _ _ _)
  · have hover := (padOverflows_iff _ _ _).mpr ⟨hopa, hwide⟩
    exact failsWith_complete ((answerOf_pad h _ _ _).trans (if_pos hover))
  · have hpass : ¬ padOverflows s.width s.opaValue s.opbValue = true := by
      rw [padOverflows_iff]
      omega
    have hlt : padValue s.opaValue s.opbValue < 2 ^ s.width := by
      rwa [padOverflows_iff_padValue (ne_zero_of_two_le_len h), not_le] at hpass
    rw [← padValue_eq_mul]
    exact completesWith_complete hs ((answerOf_pad h _ _ _).trans (if_neg hpass)) hlt

/-- Settles O52: the remainder lies below the bits that the padding leaves 0. -/
theorem encodeNeverCarries : Obligations.EncodeNeverCarries := by
  intro a gen h
  have hrem : rem (padValue a gen) gen < 2 ^ (len gen - 1) := rem_lt (ne_zero_of_two_le_len h) _
  have hdisjoint : padValue a gen &&& rem (padValue a gen) gen = 0 := shiftLeft_and_eq_zero_of_lt hrem a
  have hor : padValue a gen + rem (padValue a gen) gen = padValue a gen ||| rem (padValue a gen) gen :=
    Nat.shiftLeft_add_eq_or_of_lt hrem a
  refine ⟨?_, hrem, hdisjoint, hor, hor.trans (or_eq_xor_of_and_eq_zero hdisjoint)⟩
  rw [padValue_eq_mul]
  exact Nat.mul_mod_left _ _

/-- Settles O53: both results have length `s + g - 1`, and a number fits in W bits exactly where its length is at most W. -/
theorem codecResultLengths : Obligations.CodecResultLengths := by
  intro width a gen _ _ h
  have hgen := ne_zero_of_two_le_len h
  exact ⟨fun ha => ⟨len_padValue ha hgen, len_encodeValue ha hgen⟩, padValue_zero gen, encodeValue_zero hgen,
    padOverflows_iff_padValue hgen width a, padOverflows_iff_encodeValue hgen width a⟩

end Sys2Proof.Proofs
end

/-! # Which error a command answers with, and what a failure leaves (R202 to R204, R212) -/

section
namespace Sys2Proof.Proofs
open Sys2Proof.Machine

section Checks
variable {i : Instr} {opb : Nat} {b : Int}

theorem argumentInvalid_bitOp_iff (hi : Instr.isBitOp i = true) : ArgumentInvalid i opb b ↔ b < 0 := by
  simp [ArgumentInvalid, hi]

theorem argumentInvalid_divider_iff (hi : Instr.isBitOp i = false) : ArgumentInvalid i opb b ↔ len opb < 2 := by
  simp [ArgumentInvalid, hi]

/-- The generator check is the first check of every divider command (R141). -/
theorem answerOf_divider_of_short (hi : Instr.isBitOp i = false) (h : len opb < 2) (width opa : Nat) :
    answerOf i width opa opb b = .err .invalidArgument := by
  cases i with
  | remainder | pad | encode | decode => exact checkGenerator_short h _
  | getBit | setBit | clearBit | shiftIn | xorIfMsbSet => exact absurd hi (by decide)

/-- An invalid argument decides before any width check (R208). -/
theorem answerOf_of_argumentInvalid (h : ArgumentInvalid i opb b) (width opa : Nat) :
    answerOf i width opa opb b = .err .invalidArgument := by
  obtain ⟨hi, hneg⟩ | ⟨hi, hshort⟩ := h
  · exact answerOf_bitOp_of_neg width opa opb hi hneg
  · exact answerOf_divider_of_short hi hshort width opa

theorem answerOf_encode (h : 2 ≤ len opb) (width opa : Nat) (b : Int) :
    answerOf .encode width opa opb b =
      if padOverflows width opa opb then .err .widthOverflow else .ok (encodeValue opa opb) :=
  checkGenerator_ok h _

theorem answerOf_decode (h : 2 ≤ len opb) (width opa : Nat) (b : Int) :
    answerOf .decode width opa opb b = .ok (decodeValue opa opb) :=
  checkGenerator_ok h _

theorem widthExceeded_padding_iff (hi : i = .pad ∨ i = .encode) (width opa : Nat) :
    WidthExceeded i width opa opb b ↔ padOverflows width opa opb = true := by
  rw [padOverflows_iff]
  obtain rfl | rfl := hi <;> simp [WidthExceeded]

/-- Past the argument check a width check decides, which only SET_BIT, SHIFT_IN, PAD and ENCODE make (R203). -/
theorem answerOf_of_argument_valid (h : ¬ ArgumentInvalid i opb b) (width opa : Nat) :
    WidthExceeded i width opa opb b ∧ answerOf i width opa opb b = .err .widthOverflow ∨
    ¬ WidthExceeded i width opa opb b ∧ ∃ v, answerOf i width opa opb b = .ok v := by
  cases hi : Instr.isBitOp i with
  | true =>
    rw [argumentInvalid_bitOp_iff hi, not_lt] at h
    cases i with
    | getBit => simp [WidthExceeded, answerOf_getBit _ _ _ h]
    | clearBit => simp [WidthExceeded, answerOf_clearBit _ _ _ h]
    | xorIfMsbSet => simp [WidthExceeded, answerOf_xorIfMsbSet _ _ _ h]
    | setBit =>
      have hordinal : (width : Int) ≤ b ↔ width ≤ b.toNat := by omega
      by_cases hwide : width ≤ b.toNat <;> simp [WidthExceeded, answerOf_setBit _ _ _ h, hordinal, hwide]
    | shiftIn => cases htop : opa.testBit (width - 1) <;> simp [WidthExceeded, answerOf_shiftIn _ _ _ h, htop]
    | remainder | pad | encode | decode => exact absurd hi (by decide)
  | false =>
    rw [argumentInvalid_divider_iff hi, not_lt] at h
    cases i with
    | remainder => simp [WidthExceeded, answerOf_remainder h]
    | decode => simp [WidthExceeded, answerOf_decode h]
    | pad =>
      rw [widthExceeded_padding_iff (.inl rfl), answerOf_pad h]
      cases padOverflows width opa opb <;> simp
    | encode =>
      rw [widthExceeded_padding_iff (.inr rfl), answerOf_encode h]
      cases padOverflows width opa opb <;> simp
    | getBit | setBit | clearBit | shiftIn | xorIfMsbSet => exact absurd hi (by decide)

end Checks

/-- The three answers of a command, each with its exact condition (R202, R203, R208). -/
theorem answerOf_cases (i : Instr) (width opa opb : Nat) (b : Int) :
    ArgumentInvalid i opb b ∧ answerOf i width opa opb b = .err .invalidArgument ∨
    ¬ ArgumentInvalid i opb b ∧ WidthExceeded i width opa opb b ∧ answerOf i width opa opb b = .err .widthOverflow ∨
    ¬ ArgumentInvalid i opb b ∧ ¬ WidthExceeded i width opa opb b ∧ ∃ v, answerOf i width opa opb b = .ok v := by
  by_cases h : ArgumentInvalid i opb b
  · exact .inl ⟨h, answerOf_of_argumentInvalid h width opa⟩
  · exact .inr ((answerOf_of_argument_valid h width opa).imp (⟨h, ·⟩) (⟨h, ·⟩))

/-- Settles O56: ERR holds the code of the answer, and each of the three answers has its condition. -/
theorem errorsExactly : Obligations.ErrorsExactly := by
  refine fun s i _ => ⟨_, exec_eq_complete i s, ?_⟩
  rcases answerOf_cases i s.width s.opaValue s.opbValue s.ordinal with ⟨harg, ha⟩ | ⟨harg, hwide, ha⟩ |
    ⟨harg, hwide, v, ha⟩
  · simp [ha, harg, CmdError.errCode]
  · simp [ha, harg, hwide, CmdError.errCode]
  · simp [ha, harg, hwide]

/-- No command answers ILLEGAL_COMMAND, so a word that does is reserved (R204). -/
theorem execute_eq_illegalCommand_iff (d : Word) (width opa opb : Nat) (b : Int) :
    execute d width opa opb b = .err .illegalCommand ↔ ¬ ∃ i, decode d = .ok i := by
  cases hd : decode d with
  | error e => simp [execute_of_decode_error hd]
  | ok i =>
    rcases answerOf_cases i width opa opb b with ⟨-, ha⟩ | ⟨-, -, ha⟩ | ⟨-, -, v, ha⟩ <;> simp [execute, hd, ha]

/-- Settles O4: the reserved words are those that R81 does not call valid, whatever the operands. -/
theorem reservedWordsAreIllegal : Obligations.ReservedWordsAreIllegal := by
  intro d width opa opb b
  have hany (h : execute d width opa opb b = .err .illegalCommand) (width' opa' opb' : Nat) (b' : Int) :
      execute d width' opa' opb' b' = .err .illegalCommand := by
    rw [execute_eq_illegalCommand_iff] at h ⊢
    exact h
  refine ⟨?_, hany, ?_⟩
  · obtain ⟨hvalid, -, -⟩ := validCommandWords d
    have hzero : opField d = 0#4 ↔ (opField d).toNat = 0 := (BitVec.toNat_inj (y := 0#4)).symm
    rw [execute_eq_illegalCommand_iff, hvalid, hzero]
    by_cases hmbz : mbzField d = 0#28
    · simp only [hmbz, ne_eq, not_true_eq_false, or_false, true_and]
      omega
    · simp [hmbz]
  · rintro s rest hp hi rfl h
    exact ⟨_, step_complete_busy hp hi, failsWith_complete (hany h _ _ _ _)⟩

/-- A completion that leaves an error is the completion with that error of the state without its event (R46). -/
theorem step_completion_of_err_ne_none {s t : State} (hI : s.Inv) (hc : IsCompletion s) (h : step s = .next t)
    (he : t.err ≠ .none) : ∃ c, t = State.completeErr { s with inbox := s.inbox.tail } c := by
  rcases step_register_cases hI h with ⟨-, -, -, ht⟩ | ⟨hn, -⟩ | ⟨hn, -⟩ | ⟨hn, -⟩
  · cases ha : execute s.cmd s.width s.opaValue s.opbValue s.ordinal with
    | ok v => exact absurd (by rw [ht, ha]; rfl) he
    | err c => exact ⟨c, by rw [ht, ha, State.complete_err]⟩
  all_goals exact absurd hc hn

/-- A completion with an error leaves every register but STATUS reading as before (R212). -/
theorem readReg_completeErr (s : State) (c : CmdError) {r : Reg} (hr : r ≠ .status) :
    readReg (s.completeErr c) r = readReg s r := by
  cases r with
  | status => exact absurd rfl hr
  | id | param | ctrl | cmd | idx | opa | opb | result => rfl

/-- The inputs to come are no register: no read sees them. -/
theorem readReg_inbox (s : State) (inbox : List Event) (r : Reg) : readReg { s with inbox := inbox } r = readReg s r := by
  cases r <;> rfl

/-- Settles O31, by the one way an error is reported. -/
theorem failureChangesOnlyStatus : Obligations.FailureChangesOnlyStatus := by
  intro s t hI hc h he
  obtain ⟨c, rfl⟩ := step_completion_of_err_ne_none hI hc h he
  obtain ⟨-, -, -, -, hcode, -⟩ := State.statusWord_fields (State.completeErr { s with inbox := s.inbox.tail } c)
  exact ⟨rfl, rfl, hcode, fun r hr => (readReg_completeErr _ c hr).trans (readReg_inbox s _ r), rfl, rfl⟩

end Sys2Proof.Proofs
end

/-! # What both reset sources give (R42, R230, R231) -/

section
namespace Sys2Proof.Proofs
open Sys2Proof.Machine

/-- `rst_n` sampled low gives the reset state, in whatever phase the block is (R231). -/
theorem step_rstN_low {s : State} {rest : List Event} (hi : s.inbox = .rstN false :: rest) :
    step s = .next { State.resetWith s.params with rstN := false, inbox := rest, response := s.response } := by
  rw [step, hi]
  exact congrArg _ (State.sampleRstN_low _)

/-- A write of CTRL with SRST set gives the reset state, in whatever phase the block is (R37, R231). -/
theorem step_softReset {s : State} {d : Word} {rest : List Event} (hs : s.Wf) (hw : NextWrite s 0x008 d rest)
    (hsrst : d.getLsbD 1 = true) :
    step s = .next { State.resetWith s.params with inbox := rest, response := some .ack } := by
  have hrst : s.rstN = true := hw.1
  rw [step_nextWrite (r := .ctrl) hs rfl hw, writeReg, State.writeCtrl_reset hsrst]
  simp [State.respond, State.resetRegisters, hrst]

/-- The next state of either reset is the reset state, but for what is no register of the block (R231). -/
theorem step_of_isReset {s t : State} (hs : s.Wf) (hr : IsReset s) (h : step s = .next t) :
    t = { State.resetWith s.params with rstN := t.rstN, inbox := t.inbox, response := t.response } := by
  rcases hr with ⟨rest, hi⟩ | ⟨d, rest, hw, hsrst⟩
  · rw [step_rstN_low hi] at h
    cases h
    rfl
  · rw [step_softReset hs hw hsrst] at h
    cases h
    rfl

/-- A block with nothing done, overrun, in error or in flight reads STATUS as 0 (R29). -/
theorem statusWord_eq_zero {s : State} (hbusy : s.phase = .idle) (hdone : s.done = false) (hovr : s.ovr = false)
    (herr : s.err = .none) : s.statusWord = 0#32 := by
  rw [State.statusWord, State.busy, hbusy, hdone, hovr, herr]
  rfl

/-- Settles O14, by the step of each reset source and what the host sees of the reset state. -/
theorem resetEffect : Obligations.ResetEffect := by
  refine fun s rest hs => ⟨step_rstN_low, fun d hw hsrst => step_softReset hs hw hsrst, fun t hr h => ?_⟩
  rw [step_of_isReset hs hr h]
  exact ⟨rfl, rfl, statusWord_eq_zero rfl rfl rfl rfl, rfl, rfl⟩

end Sys2Proof.Proofs
end

/-! # Decoder and encoder, and what `Execute` answers for a command word (R17, R82) -/

section
namespace Sys2Proof.Proofs
open Sys2Proof.Machine

/-- Settles O2: the word that decodes to a command is its command word. -/
theorem decodeEncodeAgree : Obligations.DecodeEncodeAgree :=
  fun _ _ _ => decode_eq_ok_iff.trans eq_comm

/-- Settles O3: each word of the opcode map is a command word. -/
theorem opcodeMapWords : Obligations.OpcodeMapWords :=
  ⟨decode_encode .getBit, decode_encode .setBit, decode_encode .clearBit, decode_encode .shiftIn,
    decode_encode .xorIfMsbSet, decode_encode .remainder, decode_encode .pad, decode_encode .encode,
    decode_encode .decode⟩

end Sys2Proof.Proofs
end

/-! # What a step keeps: the invariant, and the parameters (R7, R41, R45, R49, R232) -/

section
namespace Sys2Proof.Proofs
open Sys2Proof.Machine

/-- Everything a host write can do: reset the block; issue a word, or store an operand, where the block is idle; or change
flags alone, among them OVR for a dropped write, and DONE never to 1 (R36, R37, R39, R47, R68). -/
theorem writeReg_cases (s : State) (d : Word) (r : Reg) :
    r = .ctrl ∧ d.getLsbD 1 = true ∧ writeReg s d r = s.resetRegisters ∨
    s.phase = .idle ∧ r = .cmd ∧ writeReg s d r = s.issue d ∨
    s.phase = .idle ∧ r = .idx ∧ writeReg s d r = { s with idx := d } ∨
    s.phase = .idle ∧ (∃ k, r = .opa k ∧ writeReg s d r = { s with opa := s.opa.set k d }) ∨
    s.phase = .idle ∧ (∃ k, r = .opb k ∧ writeReg s d r = { s with opb := s.opb.set k d }) ∨
    ∃ ie done ovr, (s.done = false → done = false) ∧ writeReg s d r = { s with ie := ie, done := done, ovr := ovr } := by
  cases r with
  | id | param | result => exact .inr (.inr (.inr (.inr (.inr ⟨s.ie, s.done, s.ovr, id, rfl⟩))))
  | status => exact .inr (.inr (.inr (.inr (.inr ⟨s.ie, _, _, fun h => by rw [h, Bool.false_and], rfl⟩))))
  | ctrl =>
    cases hsrst : d.getLsbD 1 with
    | true => exact .inl ⟨rfl, rfl, State.writeCtrl_reset hsrst⟩
    | false => exact .inr (.inr (.inr (.inr (.inr ⟨_, s.done, s.ovr, id, State.writeCtrl_enable hsrst⟩))))
  | cmd | idx | opa | opb =>
    rcases s.phase.idle_or_busy with hp | hp
    · simp [writeReg, hp]
    · exact .inr (.inr (.inr (.inr (.inr ⟨s.ie, s.done, true, id, State.writeUnlessBusy_busy _ hp⟩))))

/-- The reset state meets the invariant, at either level of `rst_n` and whatever input is to come (R42). -/
theorem inv_reset {p : Params} (hp : p.wf = true) (level : Bool) (inbox : List Event) (response : Option Response) :
    ({ State.resetWith p with rstN := level, inbox := inbox, response := response } : State).Inv :=
  ⟨⟨hp, List.length_replicate, List.length_replicate, List.length_replicate⟩, nofun, fun _ => rfl, fun _ => rfl⟩

/-- Settles O13: the reset state is one of those that meet the invariant. -/
theorem resetMeetsInvariant : Obligations.ResetMeetsInvariant :=
  fun _ hp => inv_reset hp true [] none

/-- The inputs to come and the port's last answer are no part of the invariant. -/
theorem inv_inbox_response {s : State} (hI : s.Inv) (inbox : List Event) (response : Option Response) :
    ({ s with inbox := inbox, response := response } : State).Inv := by
  obtain ⟨hs, hbusy, hidle, hlow⟩ := hI
  exact ⟨hs, hbusy, hidle, fun h => congrArg (fun u : State => { u with inbox := inbox, response := response }) (hlow h)⟩

/-- While `rst_n` is high the block is held to nothing (R232). -/
theorem inv_of_rstN_high {s : State} (hrst : s.rstN = true) (hs : s.Wf)
    (hbusy : s.phase = .busy → s.done = false ∧ s.err = .none) (hidle : s.phase = .idle → s.datapath = none) : s.Inv :=
  ⟨hs, hbusy, hidle, fun hlow => absurd (hrst.symm.trans hlow) (by decide)⟩

theorem phase_of_rstN_low {s : State} (hI : s.Inv) (hrst : s.rstN = false) : s.phase = .idle := by
  obtain ⟨-, -, -, hlow⟩ := hI
  rw [hlow hrst]
  rfl

theorem rstN_of_busy {s : State} (hI : s.Inv) (hp : s.phase = .busy) : s.rstN = true := by
  by_contra hrst
  have hidle := phase_of_rstN_low hI (Bool.eq_false_of_not_eq_true hrst)
  exact nomatch hp.symm.trans hidle

/-- A completion keeps the invariant: RESULT has N words whatever the answer (R46). -/
theorem inv_complete {s : State} (hI : s.Inv) (hp : s.phase = .busy) (a : Answer) : (s.complete a).Inv := by
  have hrst := rstN_of_busy hI hp
  obtain ⟨⟨hparams, hopa, hopb, hresult⟩, -⟩ := hI
  cases a with
  | ok v => exact inv_of_rstN_high hrst ⟨hparams, hopa, hopb, wordsOf_length _ _⟩ nofun fun _ => rfl
  | err c => exact inv_of_rstN_high hrst ⟨hparams, hopa, hopb, hresult⟩ nofun fun _ => rfl

/-- A host write keeps the invariant. -/
theorem inv_writeReg {s : State} (hI : s.Inv) (hrst : s.rstN = true) (d : Word) (r : Reg) : (writeReg s d r).Inv := by
  obtain ⟨⟨hparams, hopa, hopb, hresult⟩, hbusy, hidle, -⟩ := hI
  rcases writeReg_cases s d r with ⟨-, -, h⟩ | ⟨-, -, h⟩ | ⟨-, -, h⟩ | ⟨-, k, -, h⟩ | ⟨-, k, -, h⟩ |
    ⟨ie, done, ovr, hdone, h⟩ <;> rw [h]
  · exact inv_reset hparams _ _ _
  · exact inv_of_rstN_high hrst ⟨hparams, hopa, hopb, hresult⟩ (fun _ => ⟨rfl, rfl⟩) fun _ => rfl
  · exact inv_of_rstN_high hrst ⟨hparams, hopa, hopb, hresult⟩ hbusy hidle
  · exact inv_of_rstN_high hrst ⟨hparams, List.length_set.trans hopa, hopb, hresult⟩ hbusy hidle
  · exact inv_of_rstN_high hrst ⟨hparams, hopa, List.length_set.trans hopb, hresult⟩ hbusy hidle
  · refine inv_of_rstN_high hrst ⟨hparams, hopa, hopb, hresult⟩ (fun hp => ?_) hidle
    obtain ⟨hd, he⟩ := hbusy hp
    exact ⟨hdone hd, he⟩

theorem writeReg_params (s : State) (d : Word) (r : Reg) : (writeReg s d r).params = s.params := by
  rcases writeReg_cases s d r with ⟨-, -, h⟩ | ⟨-, -, h⟩ | ⟨-, -, h⟩ | ⟨-, k, -, h⟩ | ⟨-, k, -, h⟩ | ⟨_, _, _, -, h⟩ <;>
    rw [h] <;> rfl

theorem enginePass_of_idle {s : State} (hp : s.phase = .idle) : s.enginePass = s := by
  rw [State.enginePass, hp]

/-- An internal step keeps the invariant: it changes the datapath of a busy engine alone (R49). -/
theorem inv_enginePass {s : State} (hI : s.Inv) : s.enginePass.Inv := by
  rcases s.phase.idle_or_busy with hp | hp
  · rwa [enginePass_of_idle hp]
  · have hrst := rstN_of_busy hI hp
    obtain ⟨hs, hbusy, -⟩ := hI
    rw [s.enginePass_frame]
    exact inv_of_rstN_high hrst hs hbusy fun h => absurd (hp.symm.trans h) (by decide)

/-- A sampled level of `rst_n` keeps the invariant (R231, R232). -/
theorem inv_sampleRstN {s : State} (hI : s.Inv) (level : Bool) : (s.sampleRstN level).Inv := by
  obtain ⟨hs, hbusy, hidle, -⟩ := hI
  cases level with
  | false => exact inv_reset hs.1 _ _ _
  | true => exact inv_of_rstN_high rfl hs hbusy hidle

/-- Settles O24, by the kinds of step that go on. -/
theorem stepKeepsInvariant : Obligations.StepKeepsInvariant := by
  intro s t hI h
  have hnext (inbox : List Event) : ({ s with inbox := inbox } : State).Inv := inv_inbox_response hI inbox s.response
  rcases step_next_cases h with ⟨⟨hp, -⟩, rfl⟩ | ⟨-, -, rfl⟩ | ⟨a, rest, hi, hserve⟩ | ⟨rest, -, rfl⟩ | ⟨level, rest, -, rfl⟩
  · refine ⟨inv_complete (hnext s.inbox.tail) hp _, ?_⟩
    rw [State.complete_frame]
  · exact ⟨hnext _, rfl⟩
  · obtain ⟨r, -, ⟨-, rfl⟩ | ⟨d, ⟨hrst, -⟩, rfl⟩⟩ := serve_cases hI.1 hi hserve
    · exact ⟨inv_inbox_response hI _ _, rfl⟩
    · have hwrite := inv_writeReg (hnext rest) hrst d r
      exact ⟨inv_inbox_response hwrite _ _, writeReg_params _ d r⟩
  · refine ⟨inv_enginePass (hnext rest), ?_⟩
    rw [State.enginePass_frame]
  · refine ⟨inv_sampleRstN (hnext rest) level, ?_⟩
    cases level <;> rfl

end Sys2Proof.Proofs
end

/-! # The loaded datapath of a command in flight (R142, R143, R147, R152) -/

section
namespace Sys2Proof.Proofs
open Sys2Proof.Machine

/-- A datapath on the way to the remainder of `a` by `gen` that completion answers with, for a block of width W (R143, R152). -/
def OnTrackFor (width a gen : Nat) (d : Datapath) : Prop :=
  d.g = len gen ∧ d.s = len a ∧ -1 ≤ d.shift ∧ d.shift ≤ (width : Int) - 3 ∧ d.reg < 2 ^ d.g ∧
    d.finish a gen = rem a gen

theorem datapathOnTrack_iff {s : State} : s.DatapathOnTrack ↔
    ∀ d a gen, s.datapath = some d → s.division = some (a, gen) → OnTrackFor s.width a gen d := Iff.rfl

theorem datapathOnTrack_of_none {s : State} (h : s.datapath = none) : s.DatapathOnTrack :=
  fun _ _ _ hd => nomatch h.symm.trans hd

/-- A command divides only by a generator that passes its check, and a dividend that fits in W bits (R141, R170). -/
theorem divisionOf_bounds {i : Instr} {width opa opb a gen : Nat} (hopa : opa < 2 ^ width)
    (h : divisionOf i width opa opb = some (a, gen)) : 2 ≤ len gen ∧ len a ≤ width := by
  cases i with
  | remainder | decode =>
    rw [divisionOf] at h
    split at h
    · cases h
    · rename_i hlen
      cases h
      exact ⟨not_lt.mp hlen, (len_le_iff _ _).mpr hopa⟩
  | encode =>
    rw [divisionOf] at h
    split at h
    · rename_i hallowed
      cases h
      obtain ⟨hlen, hfits⟩ := (padAllowed_iff _ _ _).mp hallowed
      refine ⟨hlen, ?_⟩
      by_cases hzero : opa = 0
      · rw [hzero, padValue_zero, len_zero]
        exact Nat.zero_le _
      · rw [len_padValue hzero (ne_zero_of_two_le_len hlen)]
        exact hfits.resolve_left hzero
    · cases h
  | getBit | setBit | clearBit | shiftIn | xorIfMsbSet | pad => cases h

theorem division_bounds {s : State} (hs : s.Wf) {a gen : Nat} (h : s.division = some (a, gen)) :
    2 ≤ len gen ∧ len a ≤ s.width := by
  rw [State.division] at h
  split at h
  · exact divisionOf_bounds hs.opa_lt h
  · cases h

/-- The seed is on track (R142). -/
theorem onTrackFor_seed {width a gen : Nat} (hwidth : 2 ≤ width) (hlen : 2 ≤ len gen) (ha : len a ≤ width) :
    OnTrackFor width a gen (Datapath.seed a gen) := by
  have hreg := datapathAfter_reg_lt (ne_zero_of_two_le_len hlen) a 0
  refine ⟨rfl, rfl, ?_, ?_, hreg, rfl⟩ <;> rw [Datapath.seed_shift] <;> omega

/-- A pass keeps a datapath on track (R143, R147). -/
theorem OnTrackFor.pass {width a gen : Nat} {d : Datapath} (hlen : 2 ≤ len gen) (h : OnTrackFor width a gen d)
    (hshift : 0 ≤ d.shift) : OnTrackFor width a gen (d.pass a gen) := by
  have hgen := ne_zero_of_two_le_len hlen
  obtain ⟨hg, hs, hlow, hhigh, hreg, hfinish⟩ := h
  rw [hg] at hreg
  refine ⟨hg, hs, ?_, ?_, ?_, (Datapath.finish_pass a gen hshift).trans hfinish⟩
  · rw [Datapath.pass_shift]
    omega
  · rw [Datapath.pass_shift]
    omega
  · rw [Datapath.pass_g, hg, pass_reg hgen hg hreg]
    exact shiftedReg_lt hgen hreg a

theorem loadDatapath_of_division {s : State} {a gen : Nat} (h : s.division = some (a, gen)) :
    s.loadDatapath = some (Datapath.seed a gen) := by
  rw [State.loadDatapath, h]

theorem advanceDatapath_of_division {s : State} {a gen : Nat} (h : s.division = some (a, gen)) (d : Datapath) :
    s.advanceDatapath d = if 0 ≤ d.shift then d.pass a gen else d := by
  rw [State.advanceDatapath, h]

/-- An internal step loads the seed, and from then on makes a pass while dividend bits are left (R41, R143). -/
theorem datapathOnTrack_enginePass {s : State} (hs : s.Wf) (h : s.DatapathOnTrack) :
    s.enginePass.DatapathOnTrack := by
  rcases s.phase.idle_or_busy with hp | hp
  · rwa [enginePass_of_idle hp]
  rw [datapathOnTrack_iff]
  intro d a gen hd hdiv
  have hdiv' : s.division = some (a, gen) := by rwa [State.enginePass_frame] at hdiv
  obtain ⟨hlen, ha⟩ := division_bounds hs hdiv'
  rw [s.enginePass_frame]
  cases hload : s.datapath with
  | none =>
    obtain rfl : Datapath.seed a gen = d := by
      simpa [State.enginePass, hp, hload, loadDatapath_of_division hdiv'] using hd
    obtain ⟨-, hwidth, -⟩ := (Params.wf_iff s.params).mp hs.1
    exact onTrackFor_seed (Nat.le_trans (by decide) hwidth) hlen ha
  | some d₀ =>
    obtain rfl : s.advanceDatapath d₀ = d := by simpa [State.enginePass, hp, hload] using hd
    have htrack : OnTrackFor s.width a gen d₀ := h d₀ a gen hload hdiv'
    rw [advanceDatapath_of_division hdiv']
    split
    · rename_i hshift
      exact htrack.pass hlen hshift
    · exact htrack

/-- A host write keeps a datapath on track: while one is loaded the block is busy, and the operands are frozen (R47). -/
theorem datapathOnTrack_writeReg {s : State} (hidle : s.phase = .idle → s.datapath = none) (h : s.DatapathOnTrack)
    (d : Word) (r : Reg) : (writeReg s d r).DatapathOnTrack := by
  rcases writeReg_cases s d r with ⟨-, -, he⟩ | ⟨-, -, he⟩ | ⟨hp, -, he⟩ | ⟨hp, k, -, he⟩ | ⟨hp, k, -, he⟩ |
    ⟨ie, done, ovr, -, he⟩ <;> rw [he]
  · exact datapathOnTrack_of_none rfl
  · exact datapathOnTrack_of_none rfl
  · exact datapathOnTrack_of_none (hidle hp)
  · exact datapathOnTrack_of_none (hidle hp)
  · exact datapathOnTrack_of_none (hidle hp)
  · exact h

/-- Settles O25: a command in flight keeps its operands, and every step but an internal one keeps or empties its datapath. -/
theorem stepKeepsDatapathOnTrack : Obligations.StepKeepsDatapathOnTrack := by
  intro s t hI htrack h
  obtain ⟨hs, -, hidle, -⟩ := hI
  rcases step_next_cases h with ⟨-, rfl⟩ | ⟨-, -, rfl⟩ | ⟨a, rest, hi, hserve⟩ | ⟨rest, -, rfl⟩ | ⟨level, rest, -, rfl⟩
  · exact datapathOnTrack_of_none (State.complete_datapath _ _)
  · exact htrack
  · obtain ⟨r, -, ⟨-, rfl⟩ | ⟨d, -, rfl⟩⟩ := serve_cases hs hi hserve
    · exact htrack
    · exact datapathOnTrack_writeReg (s := { s with inbox := rest }) hidle htrack d r
  · exact datapathOnTrack_enginePass (s := { s with inbox := rest }) hs htrack
  · cases level with
    | false => exact datapathOnTrack_of_none rfl
    | true => exact htrack

end Sys2Proof.Proofs
end

/-! # What `Execute` answers, and what a completion makes of it (R17, R46, R208) -/

section
namespace Sys2Proof.Proofs
open Sys2Proof.Machine

theorem execute_of_decode_ok {d : Word} {i : Instr} (h : decode d = .ok i) (width opa opb : Nat) (b : Int) :
    execute d width opa opb b = answerOf i width opa opb b := by
  rw [execute, h]

/-- Settles O57, from the conditions of the three answers of a command. -/
theorem checkPriority : Obligations.CheckPriority := by
  intro d width opa opb b
  refine ⟨fun e he => execute_of_decode_error he width opa opb b, fun i hi harg => ?_, fun i hi harg hwide => ?_,
    fun i hi harg hwide => ?_⟩ <;> rw [execute_of_decode_ok hi]
  · exact answerOf_of_argumentInvalid harg width opa
  · exact ((answerOf_of_argument_valid harg width opa).resolve_right fun h => h.1 hwide).2
  · exact ((answerOf_of_argument_valid harg width opa).resolve_left fun h => hwide h.1).2

theorem argument_valid_of_answer_ok {i : Instr} {width opa opb v : Nat} {b : Int}
    (h : answerOf i width opa opb b = .ok v) : ¬ ArgumentInvalid i opb b :=
  fun harg => nomatch (answerOf_of_argumentInvalid harg width opa).symm.trans h

theorem rem_lt_two_pow {a gen width : Nat} (h : 2 ≤ len gen) (hgen : gen < 2 ^ width) : rem a gen < 2 ^ width := by
  obtain ⟨-, -, -, hbelow⟩ := remainderBound a gen h
  exact hbelow.trans hgen

theorem decodeValue_lt_two_pow {width : Nat} (hw : 0 < width) (a gen : Nat) : decodeValue a gen < 2 ^ width := by
  have hone : 1 < 2 ^ width := Nat.one_lt_two_pow hw.ne'
  rw [decodeValue]
  split
  · exact hone
  · exact Nat.two_pow_pos width

/-- What a command answers past its width check. -/
theorem eq_of_ite_err_eq_ok {P : Prop} [Decidable P] {c : CmdError} {u v : Nat}
    (h : (if P then Answer.err c else .ok u) = .ok v) : ¬ P ∧ u = v := by
  split at h
  · cases h
  · rename_i hP
    exact ⟨hP, Answer.ok.inj h⟩

/-- A command with a valid argument answers a value that fits: its width check, if any, is what it needs (R203). -/
theorem answerOf_lt {i : Instr} {width opa opb v : Nat} {b : Int} (hw : 0 < width) (hopa : opa < 2 ^ width)
    (hopb : opb < 2 ^ width) (h : answerOf i width opa opb b = .ok v) : v < 2 ^ width := by
  have harg := argument_valid_of_answer_ok h
  cases hi : Instr.isBitOp i with
  | true =>
    rw [argumentInvalid_bitOp_iff hi, not_lt] at harg
    cases i with
    | getBit =>
      cases (answerOf_getBit width opa opb harg).symm.trans h
      exact gb_lt_two_pow hw _ _
    | clearBit =>
      cases (answerOf_clearBit width opa opb harg).symm.trans h
      exact clearBitValue_lt hopa _
    | xorIfMsbSet =>
      cases (answerOf_xorIfMsbSet width opa opb harg).symm.trans h
      rw [xorIfMsbSetValue]
      split
      · exact Nat.xor_lt_two_pow hopa hopb
      · exact hopa
    | setBit =>
      obtain ⟨hfits, rfl⟩ := eq_of_ite_err_eq_ok ((answerOf_setBit width opa opb harg).symm.trans h)
      exact setBitValue_lt hopa (not_le.mp hfits)
    | shiftIn =>
      obtain ⟨hfits, rfl⟩ := eq_of_ite_err_eq_ok ((answerOf_shiftIn width opa opb harg).symm.trans h)
      exact shiftInValue_lt hw hopa (Bool.eq_false_iff.mpr hfits) _ _
    | remainder | pad | encode | decode => exact absurd hi (by decide)
  | false =>
    rw [argumentInvalid_divider_iff hi, not_lt] at harg
    have hgen := ne_zero_of_two_le_len harg
    cases i with
    | remainder =>
      cases (answerOf_remainder harg width opa b).symm.trans h
      exact rem_lt_two_pow harg hopb
    | decode =>
      cases (answerOf_decode harg width opa b).symm.trans h
      exact decodeValue_lt_two_pow hw _ _
    | pad =>
      obtain ⟨hfits, rfl⟩ := eq_of_ite_err_eq_ok ((answerOf_pad harg width opa b).symm.trans h)
      rwa [padOverflows_iff_padValue hgen, not_le] at hfits
    | encode =>
      obtain ⟨hfits, rfl⟩ := eq_of_ite_err_eq_ok ((answerOf_encode harg width opa b).symm.trans h)
      rwa [padOverflows_iff_encodeValue hgen, not_le] at hfits
    | getBit | setBit | clearBit | shiftIn | xorIfMsbSet => exact absurd hi (by decide)

/-- Settles O7: a word that answers a value is the word of a command. -/
theorem executeAnswersFit : Obligations.ExecuteAnswersFit := by
  intro p d opa opb b v hp hopa hopb h
  obtain ⟨-, hwide, -⟩ := (Params.wf_iff p).mp hp
  cases hd : decode d with
  | error e => exact nomatch (execute_of_decode_error hd _ _ _ _).symm.trans h
  | ok i =>
    rw [execute_of_decode_ok hd] at h
    exact answerOf_lt (Nat.lt_of_lt_of_le (by decide) hwide) hopa hopb h

/-- Settles O6: the answer is a code, or a value that the N words of RESULT hold. -/
theorem completionAppliesExecute : Obligations.CompletionAppliesExecute := by
  intro s rest hs hp hi
  refine ⟨_, step_complete_busy hp hi, ?_⟩
  cases ha : execute s.cmd s.width s.opaValue s.opbValue s.ordinal with
  | err c => exact failsWith_completeErr _ c
  | ok v =>
    have hfits := executeAnswersFit s.params s.cmd _ _ _ v hs.1 hs.opa_lt hs.opb_lt ha
    exact completesWith_completeOk (s := { s with inbox := rest }) hs hfits

/-- The engine's turn to complete is `exec` of the decoded command (R46). -/
theorem engineComplete_of_decode_ok {s : State} {i : Instr} (hp : s.phase = .busy) (hd : decode s.cmd = .ok i) :
    engineComplete s = exec i s := by
  rw [engineComplete_busy hp, execute_of_decode_ok hd, exec_eq_complete]

theorem tableWord_encode (i : Instr) : tableWord 32 (encode i).toNat = encode i := by
  cases i <;> rfl

/-- Settles O5: each of the three steps is the engine's turn to complete. -/
theorem stepRunsDecodedCommand : Obligations.StepRunsDecodedCommand := by
  refine ⟨fun s i rest hp hi hd => ?_, fun s i hp hi hd => ?_, fun s i => ?_⟩
  · rw [step, hi]
    exact engineComplete_of_decode_ok hp hd
  · rw [step, hi]
    exact engineComplete_of_decode_ok hp hd
  · rw [step_withFetchWord, tableWord_encode]
    exact engineComplete_of_decode_ok rfl (decode_encode i)

/-- A command answers the same where the operands that it reads are the same (R82). -/
theorem answerOf_congr {i : Instr} {opb opb' : Nat} {b b' : Int} (width opa : Nat)
    (hopb : i ≠ .getBit → i ≠ .setBit → i ≠ .clearBit → opb = opb') (hb : Instr.isBitOp i = true → b = b') :
    answerOf i width opa opb b = answerOf i width opa opb' b' := by
  cases i with
  | getBit | setBit | clearBit =>
    rw [hb rfl]
    rfl
  | shiftIn | xorIfMsbSet => rw [hb rfl, hopb nofun nofun nofun]
  | remainder | pad | encode | decode =>
    rw [hopb nofun nofun nofun]
    rfl

/-- Settles O58: both states complete with one answer. -/
theorem resultDependsOnOperandsOnly : Obligations.ResultDependsOnOperandsOnly := by
  intro s s' i hparams hopa hopb hidx
  have hanswer : answerOf i s.width s.opaValue s.opbValue s.ordinal =
      answerOf i s'.width s'.opaValue s'.opbValue s'.ordinal := by
    rw [State.width, State.opaValue, hparams, hopa]
    exact answerOf_congr _ _ (fun h₁ h₂ h₃ => congrArg valueOf (hopb h₁ h₂ h₃)) fun h => congrArg sint32 (hidx h)
  refine ⟨_, _, exec_eq_complete i s, exec_eq_complete i s', ?_⟩
  rw [← hanswer]
  cases answerOf i s.width s.opaValue s.opbValue s.ordinal with
  | ok v => exact ⟨rfl, fun _ => congrArg (fun p => wordsOf (Params.words p) v) hparams, fun h => absurd rfl h⟩
  | err c => exact ⟨rfl, fun h => absurd h c.errCode_ne_none, fun _ => ⟨rfl, rfl⟩⟩

end Sys2Proof.Proofs
end

/-! # What reads answer, and what writes do in each phase (R22 to R25, R29, R34 to R38, R47, R67, R68) -/

section
namespace Sys2Proof.Proofs
open Sys2Proof.Machine

/-! The words that a read answers. -/

/-- PARAM reads W, which its 16 bits hold (R35). -/
theorem paramWord_toNat {s : State} (hs : s.Wf) : s.paramWord.toNat = s.width := by
  obtain ⟨-, -, hnarrow, -⟩ := (Params.wf_iff s.params).mp hs.1
  have hlt : s.width < 2 ^ 16 := Nat.lt_of_le_of_lt hnarrow (by decide)
  have hword : (BitVec.ofNat 16 s.width).toNat = s.width := Nat.mod_eq_of_lt hlt
  rw [State.paramWord, BitVec.toNat_append, hword]
  exact Nat.zero_or _

theorem getElem?_eq_some_getD {l : List Word} {k : Nat} (hk : k < l.length) : l[k]? = some (l.getD k 0#32) := by
  simp [hk]

/-- Settles O16: the register at the offset is the one that each clause names. -/
theorem readsReturnRegisters : Obligations.ReadsReturnRegisters := by
  intro s off rest hs hread hmapped
  obtain ⟨r, hr, rfl⟩ := mappedOffset_iff.mp hmapped
  have ⟨_, hopa, hopb, hresult⟩ := hs
  have hits (r' : Reg) (hr' : r'.present s.words = true) (ho : r.offset = r'.offset) : readReg s r = readReg s r' := by
    rw [Reg.offset_injective hs.words_le hr hr' ho]
  refine ⟨_, step_nextRead hs hr hread, hits .id rfl, fun ho => ?_, fun ho j => ?_, fun ho => ?_, hits .cmd rfl,
    hits .idx rfl, fun k hk => ⟨fun ho => ?_, fun ho => ?_, fun ho => ?_⟩⟩
  · rw [hits .param rfl ho]
    exact paramWord_toNat hs
  · rw [hits .ctrl rfl ho]
    exact s.ctrlWord_getLsbD j
  · rw [hits .status rfl ho]
    exact s.statusWord_fields
  · rw [hits (.opa k) (decide_eq_true hk) ho]
    exact getElem?_eq_some_getD (hopa ▸ hk)
  · rw [hits (.opb k) (decide_eq_true hk) ho]
    exact getElem?_eq_some_getD (hopb ▸ hk)
  · rw [hits (.result k) (decide_eq_true hk) ho]
    exact getElem?_eq_some_getD (hresult ▸ hk)

/-- STATUS of a busy block is 1 or 5 (R49). -/
theorem statusWord_of_busy {s : State} (hbusy : s.phase = .busy) (hdone : s.done = false) (herr : s.err = .none) :
    s.statusWord = if s.ovr then 0x00000005#32 else 0x00000001#32 := by
  rw [State.statusWord, State.busy, hbusy, hdone, herr]
  cases s.ovr <;> rfl

/-- Settles O11, from the invariant of a busy block. -/
theorem busyStatusReadsOneOrFive : Obligations.BusyStatusReadsOneOrFive := by
  intro s rest hI hp hread
  obtain ⟨hs, hbusy, -⟩ := hI
  obtain ⟨hdone, herr⟩ := hbusy hp
  rw [step_nextRead (r := .status) hs rfl hread, readReg, statusWord_of_busy hp hdone herr]
  rfl

/-! The writes. -/

/-- Settles O19: each of these offsets is that of a register whose write does nothing. -/
theorem readOnlyWritesIgnored : Obligations.ReadOnlyWritesIgnored := by
  intro s off d rest hs hwrite hoff
  obtain rfl | rfl | ⟨k, hk, rfl⟩ := hoff
  · exact step_nextWrite (r := .id) hs rfl hwrite
  · exact step_nextWrite (r := .param) hs rfl hwrite
  · exact step_nextWrite (r := .result k) hs (decide_eq_true hk) hwrite

/-- A frozen offset is that of a register of the block whose writes a busy block drops (R47). -/
theorem exists_frozen_of_frozenOffset {n off : Nat} (h : FrozenOffset n off) :
    ∃ r : Reg, r.present n = true ∧ frozen r = true ∧ off = r.offset := by
  obtain rfl | rfl | ⟨k, hk, rfl | rfl⟩ := h
  · exact ⟨.cmd, rfl, rfl, rfl⟩
  · exact ⟨.idx, rfl, rfl, rfl⟩
  · exact ⟨.opa k, decide_eq_true hk, rfl, rfl⟩
  · exact ⟨.opb k, decide_eq_true hk, rfl, rfl⟩

theorem writeReg_of_frozen {s : State} {r : Reg} (hp : s.phase = .busy) (hr : frozen r = true) (d : Word) :
    writeReg s d r = s.dropWrite := by
  cases r with
  | cmd | idx | opa | opb => exact State.writeUnlessBusy_busy _ hp
  | id | param | ctrl | status | result => cases hr

theorem lt_of_mappedOffset_result {n k : Nat} (h : MappedOffset n (0x300 + 4 * k)) : k < n := by
  obtain ⟨j, hj, ho⟩ | ⟨j, hj, ho | ho | ho⟩ := h <;> omega

/-- Settles O9: writes of the frozen registers set OVR, CTRL and STATUS take theirs, and reads are as in either phase. -/
theorem busyBlockAccesses : Obligations.BusyBlockAccesses := by
  intro s off d rest hI hp
  obtain ⟨hs, hbusy, -⟩ := hI
  obtain ⟨hdone, -⟩ := hbusy hp
  refine ⟨fun hwrite hfrozen => ?_, fun hwrite hsrst => ?_, step_softReset hs, fun hwrite => ?_, fun hread hmapped => ?_⟩
  · obtain ⟨r, hr, hr', rfl⟩ := exists_frozen_of_frozenOffset hfrozen
    rw [step_nextWrite hs hr hwrite, writeReg_of_frozen (s := { s with inbox := rest }) hp hr']
    rfl
  · rw [step_nextWrite (r := .ctrl) hs rfl hwrite, writeReg, State.writeCtrl_enable hsrst]
    rfl
  · rw [step_nextWrite (r := .status) hs rfl hwrite]
    simp [writeReg, State.ackStatus, State.respond, hdone]
  · obtain ⟨w, hstep, -, -, -, -, -, -, hwide⟩ := readsReturnRegisters s off rest hs hread hmapped
    refine ⟨w, hstep, ?_⟩
    rintro k rfl
    obtain ⟨-, -, hresult⟩ := hwide k (lt_of_mappedOffset_result hmapped)
    exact hresult rfl

/-- Storing word k of a wide register replaces bits `32k` to `32k + 31` of its value (R64). -/
theorem testBit_valueOf_set {l : List Word} {k : Nat} (hk : k < l.length) (d : Word) (j : Nat) :
    (valueOf (l.set k d)).testBit j =
      if 32 * k ≤ j ∧ j < 32 * k + 32 then d.getLsbD (j - 32 * k) else (valueOf l).testBit j := by
  have hbit (l : List Word) : (valueOf l).testBit j = (l.getD (j / 32) 0#32).getLsbD (j % 32) := by
    rw [← testBit_valueOf l _ _ (Nat.mod_lt j (by decide)), Nat.div_add_mod]
  rw [hbit, hbit]
  by_cases hj : j / 32 = k
  · subst hj
    rw [if_pos (by omega), List.getD_eq_getElem?_getD, List.getElem?_set_self hk]
    congr 1
    omega
  · rw [if_neg (by omega), List.getD_eq_getElem?_getD, List.getElem?_set_ne (Ne.symm hj), ← List.getD_eq_getElem?_getD]

theorem step_writeOpa_idle {s : State} {d : Word} {rest : List Event} {k : Nat} (hs : s.Wf) (hp : s.phase = .idle)
    (hk : k < s.words) (hw : NextWrite s (0x100 + 4 * k) d rest) :
    step s = .next { s with inbox := rest, response := some .ack, opa := s.opa.set k d } := by
  rw [step_nextWrite (r := .opa k) hs (decide_eq_true hk) hw, writeReg,
    State.writeUnlessBusy_idle (s := { s with inbox := rest }) _ hp]
  rfl

theorem step_writeOpb_idle {s : State} {d : Word} {rest : List Event} {k : Nat} (hs : s.Wf) (hp : s.phase = .idle)
    (hk : k < s.words) (hw : NextWrite s (0x200 + 4 * k) d rest) :
    step s = .next { s with inbox := rest, response := some .ack, opb := s.opb.set k d } := by
  rw [step_nextWrite (r := .opb k) hs (decide_eq_true hk) hw, writeReg,
    State.writeUnlessBusy_idle (s := { s with inbox := rest }) _ hp]
  rfl

/-- Settles O18: each write stores its word. -/
theorem operandWrites : Obligations.OperandWrites := by
  intro s d rest hI hp
  obtain ⟨hs, -⟩ := hI
  have ⟨_, hopa, hopb, _⟩ := hs
  refine ⟨fun k hk hw => ?_, fun k hk hw => ?_, fun hw => ?_⟩
  · exact ⟨_, step_writeOpa_idle hs hp hk hw, rfl, List.length_set.trans hopa, testBit_valueOf_set (hopa ▸ hk) d⟩
  · exact ⟨_, step_writeOpb_idle hs hp hk hw, rfl, List.length_set.trans hopb, testBit_valueOf_set (hopb ▸ hk) d⟩
  · rw [step_nextWrite (r := .idx) hs rfl hw, writeReg, State.writeUnlessBusy_idle (s := { s with inbox := rest }) _ hp]
    rfl

/-! What no access sees, and the reset state. -/

/-- No read sees the datapath (R41). -/
theorem readReg_datapath (s : State) (datapath : Option Datapath) (r : Reg) :
    readReg { s with datapath := datapath } r = readReg s r := by
  cases r <;> rfl

/-- Settles O10: an internal step changes the datapath alone. -/
theorem enginePassIsInvisible : Obligations.EnginePassIsInvisible := by
  intro s rest hi
  refine ⟨State.enginePass { s with inbox := rest }, ?_, State.enginePass_frame _, fun r => ?_, ?_⟩
  · rw [step, hi]
  · rw [State.enginePass_frame, readReg_datapath, readReg_inbox]
  · rw [State.enginePass_frame]
    rfl

theorem ctrlWord_eq_zero {s : State} (hie : s.ie = false) : s.ctrlWord = 0#32 := by
  rw [State.ctrlWord, hie]
  rfl

/-- Settles O12, register by register. -/
theorem resetState : Obligations.ResetState := by
  refine ⟨rfl, fun p hp => ?_⟩
  obtain ⟨hs, -⟩ := resetMeetsInvariant p hp
  have hzero := valueOf_replicate_zero p.words
  have hword {k : Nat} (hk : k < p.words) : (List.replicate p.words 0#32)[k]? = some 0#32 := by simp [hk]
  exact ⟨rfl, rfl, paramWord_toNat hs, ctrlWord_eq_zero rfl, rfl, statusWord_eq_zero rfl rfl rfl rfl, rfl, rfl, rfl, rfl, rfl,
    fun k hk => ⟨hword hk, hword hk, hword hk⟩, hzero, hzero, hzero, rfl, rfl, rfl⟩

/-- With `rst_n` low the block is idle and serves no access, so only a level of `rst_n` changes it (R232). -/
theorem step_cases_of_rstN_low {s t : State} (hI : s.Inv) (hrst : s.rstN = false) (h : step s = .next t) :
    (∀ rest, s.inbox ≠ .rstN true :: rest) ∧ t = { s with inbox := s.inbox.tail } ∨
    ∃ level rest, s.inbox = .rstN level :: rest ∧ t = State.sampleRstN { s with inbox := rest } level := by
  have hidle := phase_of_rstN_low hI hrst
  rcases step_next_cases h with ⟨⟨hp, -⟩, -⟩ | ⟨-, hi, ht⟩ | ⟨a, rest, -, hserve⟩ | ⟨rest, hi, ht⟩ | hlevel
  · exact absurd (hidle.symm.trans hp) (by decide)
  · refine .inl ⟨fun rest hc => ?_, ht⟩
    rcases hi with hi | ⟨rest', hi⟩ <;> cases hi.symm.trans hc
  · obtain ⟨-, hhigh, -⟩ := serve_next_cases hserve
    exact absurd (hrst.symm.trans hhigh) (by decide)
  · rw [enginePass_of_idle (s := { s with inbox := rest }) hidle] at ht
    refine .inl ⟨fun rest' hc => (nomatch hi.symm.trans hc), ?_⟩
    rw [ht, hi]
    rfl
  · exact .inr hlevel

/-- Settles O15, by what can happen to a block held in reset. -/
theorem heldInReset : Obligations.HeldInReset := by
  intro s t hI hrst h
  have hidle := phase_of_rstN_low hI hrst
  have ⟨_, _, _, hlow⟩ := hI
  rcases step_cases_of_rstN_low hI hrst h with ⟨hne, rfl⟩ | ⟨level, rest, hi, rfl⟩
  · exact ⟨hidle, congrArg (fun u : State => { u with inbox := s.inbox.tail }) (hlow hrst), by simp [hrst, hne]⟩
  · cases level with
    | false => exact ⟨rfl, rfl, by simp [hi]⟩
    | true => exact ⟨hidle, congrArg (fun u : State => { u with rstN := true, inbox := rest }) (hlow hrst), by simp [hi]⟩

end Sys2Proof.Proofs
end

/-! # What stops a step, and what alone changes each register (R25, R27, R38, R43, R61 to R63, R206, R232, R245) -/

section
namespace Sys2Proof.Proofs
open Sys2Proof.Machine

/-! What the port does with an access. -/

/-- The port serves no such access: it is outside the window, comes while `rst_n` is low, or not through device memory (R61,
R232, R245). -/
def RefusesAccess (s : State) (a : Access) : Prop :=
  inWindow s a.addr = false ∨ s.rstN = false ∨ a.mapping ≠ .device

/-- The access is not 32 bits wide, not aligned or not mapped (R62, R63). -/
def BadAccess (s : State) (a : Access) : Prop :=
  a.bits ≠ 32 ∨ offsetOf a.addr % 4 ≠ 0 ∨ regAt s.words (offsetOf a.addr) = none

/-- The three outcomes of an access, each with its exact condition (R206). -/
theorem serve_outcomes (a : Access) (s : State) :
    RefusesAccess s a ∧ (∃ r, serve a s = .refused r) ∨
    ¬ RefusesAccess s a ∧ BadAccess s a ∧ (∃ f, serve a s = .fault f) ∨
    ¬ RefusesAccess s a ∧ ¬ BadAccess s a ∧ ∃ t, serve a s = .next t := by
  by_cases hw : inWindow s a.addr = false
  · exact .inl ⟨.inl hw, _, if_pos hw⟩
  by_cases hr : s.rstN = false
  · exact .inl ⟨.inr (.inl hr), .accessDuringReset, by simp [serve, hw, hr]⟩
  by_cases hd : a.mapping ≠ .device
  · exact .inl ⟨.inr (.inr hd), .notDeviceMapped, by simp [serve, hw, hr, hd]⟩
  have hok : ¬ RefusesAccess s a := by simp [RefusesAccess, hw, hr, hd]
  refine .inr ?_
  by_cases hb : a.bits ≠ 32
  · exact .inl ⟨hok, .inl hb, .busErrorWidth, by simp [serve, hw, hr, hd, hb]⟩
  by_cases ha : offsetOf a.addr % 4 ≠ 0
  · exact .inl ⟨hok, .inr (.inl ha), .busErrorMisaligned, by simp [serve, hw, hr, hd, hb, ha]⟩
  cases hm : regAt s.words (offsetOf a.addr) with
  | none => exact .inl ⟨hok, .inr (.inr hm), .busErrorUnmapped, by simp [serve, hw, hr, hd, hb, ha, hm]⟩
  | some r =>
    exact .inr ⟨hok, by simp [BadAccess, hb, ha, hm], perform s r a.op, by simp [serve, hw, hr, hd, hb, ha, hm]⟩

theorem serve_refused_iff (a : Access) (s : State) : (∃ r, serve a s = .refused r) ↔ RefusesAccess s a := by
  rcases serve_outcomes a s with ⟨hr, r, h⟩ | ⟨hr, -, f, h⟩ | ⟨hr, -, t, h⟩ <;> simp [hr, h]

theorem serve_fault_iff (a : Access) (s : State) : (∃ f, serve a s = .fault f) ↔ ¬ RefusesAccess s a ∧ BadAccess s a := by
  rcases serve_outcomes a s with ⟨hr, r, h⟩ | ⟨hr, hb, f, h⟩ | ⟨hr, hb, t, h⟩
  · simp [hr, h]
  · simp [hr, hb, h]
  · simp [hr, hb, h]

theorem serve_next_iff (a : Access) (s : State) : (∃ t, serve a s = .next t) ↔ ¬ RefusesAccess s a ∧ ¬ BadAccess s a := by
  rcases serve_outcomes a s with ⟨hr, r, h⟩ | ⟨hr, hb, f, h⟩ | ⟨hr, hb, t, h⟩
  · simp [hr, h]
  · simp [hr, hb, h]
  · simp [hr, hb, h]

theorem refusesAccess_iff {s : State} {a : Access} : RefusesAccess s a ↔
    ¬ (s.params.base ≤ a.addr ∧ a.addr < s.params.base + 0x400) ∨ s.rstN = false ∨ a.mapping ≠ .device := by
  have hwindow : inWindow s a.addr = false ↔ ¬ (s.params.base ≤ a.addr ∧ a.addr < s.params.base + 0x400) := by
    rw [← Bool.not_eq_true, inWindow, Bool.and_eq_true, decide_eq_true_eq, decide_eq_true_eq, Config.windowBytes]
  rw [RefusesAccess, hwindow]

/-- The engine's turn to complete always goes on. -/
theorem engineComplete_next (s : State) : ∃ t, engineComplete s = .next t := by
  rcases s.phase.idle_or_busy with hp | hp
  · exact ⟨s, engineComplete_idle hp⟩
  · exact ⟨_, engineComplete_busy hp⟩

/-- A step goes on, or it is the port's answer to an access. -/
theorem step_next_or_serve (s : State) :
    (∃ t, step s = .next t) ∧ (∀ a rest, s.inbox ≠ .access a :: rest) ∨
    ∃ a rest, s.inbox = .access a :: rest ∧ step s = serve a { s with inbox := rest } := by
  rw [step]
  split <;> rename_i hi
  · exact .inl ⟨engineComplete_next s, by simp [hi]⟩
  · exact .inr ⟨_, _, hi, rfl⟩
  · exact .inl ⟨⟨_, rfl⟩, by simp [hi]⟩
  · exact .inl ⟨engineComplete_next _, by simp [hi]⟩
  · exact .inl ⟨⟨_, rfl⟩, by simp [hi]⟩

/-- Settles O23, from the port's answers. -/
theorem onlyAccessesStop : Obligations.OnlyAccessesStop := by
  intro s
  rcases step_next_or_serve s with ⟨⟨t, h⟩, hne⟩ | ⟨a, rest, hi, h⟩
  · simp [h, hne]
  · rw [h, serve_refused_iff, refusesAccess_iff]
    refine ⟨⟨fun hr => ⟨a, rest, hi, hr⟩, ?_⟩, fun f hf => ?_⟩
    · rintro ⟨a', rest', hi', hr⟩
      cases hi.symm.trans hi'
      exact hr
    · obtain ⟨hr, -⟩ := (serve_fault_iff a _).mp ⟨f, hf⟩
      simp only [refusesAccess_iff, not_or, not_not, Bool.not_eq_false] at hr
      obtain ⟨⟨hlow, hhigh⟩, hrst, hdevice⟩ := hr
      exact ⟨a, rest, hi, hlow, hhigh, hrst, hdevice⟩

/-- An aligned offset is unmapped exactly when no register lies there (R61, R63). -/
theorem regAt_eq_none_iff {n off : Nat} (hn : n ≤ 64) (ha : off % 4 = 0) : regAt n off = none ↔ ¬ MappedOffset n off := by
  rw [mappedOffset_iff, iff_not_comm, ← ne_eq, Option.ne_none_iff_exists']
  constructor
  · rintro ⟨r, hr, rfl⟩
    exact ⟨r, regAt_offset hn hr⟩
  · rintro ⟨r, hr⟩
    obtain ⟨ho, hpresent⟩ := regAt_eq_some ha hr
    exact ⟨r, hpresent, ho⟩

/-- The offset of an address of the window is its distance from BASE (R8, R61). -/
theorem offsetOf_eq_sub {p : Params} (hp : p.wf = true) {addr : Nat} (hlow : p.base ≤ addr)
    (hhigh : addr < p.base + 0x400) : offsetOf addr = addr - p.base := by
  obtain ⟨-, -, -, hbase⟩ := (Params.wf_iff p).mp hp
  have hoff := offsetOf_base_add hbase (off := addr - p.base) (by omega)
  rwa [Nat.add_sub_cancel' hlow] at hoff

theorem badAccess_iff {s : State} (hs : s.Wf) {a : Access} (hlow : s.params.base ≤ a.addr)
    (hhigh : a.addr < s.params.base + 0x400) : BadAccess s a ↔
    a.bits ≠ 32 ∨ (a.addr - s.params.base) % 4 ≠ 0 ∨ ¬ MappedOffset s.words (a.addr - s.params.base) := by
  rw [BadAccess, offsetOf_eq_sub hs.1 hlow hhigh]
  by_cases ha : (a.addr - s.params.base) % 4 = 0
  · rw [regAt_eq_none_iff hs.words_le ha]
  · simp [ha]

theorem mod_four_of_mappedOffset {n off : Nat} (h : MappedOffset n off) : off % 4 = 0 := by
  obtain ⟨r, -, rfl⟩ := mappedOffset_iff.mp h
  exact r.offset_mod_four

/-- Settles O22: an access that is not refused is a bus error or is performed. -/
theorem busErrorExactly : Obligations.BusErrorExactly := by
  intro s a rest hs hrst hi hdevice hlow hhigh
  have hstep : step s = serve a { s with inbox := rest } := by rw [step, hi]
  have hserved : ¬ RefusesAccess s a := by simp [refusesAccess_iff, hlow, hhigh, hrst, hdevice]
  rw [hstep]
  constructor
  · rw [serve_fault_iff]
    exact (and_iff_right hserved).trans (badAccess_iff hs hlow hhigh)
  · intro hb hm
    have hgood : ¬ BadAccess s a := by simp [badAccess_iff hs hlow hhigh, hb, hm, mod_four_of_mappedOffset hm]
    exact (serve_next_iff a _).mpr ⟨hserved, hgood⟩

/-! What changes a register. -/

/-- Settles O29, by the kinds of step and what each kind of write stores. -/
theorem registersChangeOnlyBy : Obligations.RegistersChangeOnlyBy := by
  intro s t hI h
  rcases step_register_cases hI h with ⟨hc, -, -, rfl⟩ | ⟨-, -, -, _, _, _, _, rfl⟩ | ⟨-, -, rest, hi, -⟩ |
    ⟨-, -, r, d, rest, hr, hw, rfl⟩
  · cases execute s.cmd s.width s.opaValue s.opbValue s.ordinal with
    | ok v => simp [hc]
    | err c => simp
  · simp
  · have hreset : IsReset s := .inl ⟨rest, hi⟩
    simp [hreset]
  · rcases writeReg_cases { s with inbox := rest } d r with ⟨rfl, hsrst, hwrite⟩ | ⟨hp, rfl, hwrite⟩ | ⟨hp, rfl, hwrite⟩ |
      ⟨hp, k, rfl, hwrite⟩ | ⟨hp, k, rfl, hwrite⟩ | ⟨_, _, _, -, hwrite⟩ <;> rw [hwrite]
    · have hreset : IsReset s := .inr ⟨d, rest, hw, hsrst⟩
      simp [hreset]
    · have hissue : IsIssue s d := ⟨hp, rest, hw⟩
      simp [hissue]
    · have hidx : s.phase = .idle ∧ ∃ d rest, NextWrite s 0x014 d rest := ⟨hp, d, rest, hw⟩
      simp [hidx]
    · exact ⟨fun _ => .inr ⟨hp, k, d, rest, of_decide_eq_true hr, hw⟩, by simp⟩
    · exact ⟨by simp, fun _ => .inr ⟨hp, k, d, rest, of_decide_eq_true hr, hw⟩, by simp⟩
    · simp

/-- A completion leaves IE and sets DONE, so it raises `irq` exactly where IE is 1 (R210). -/
theorem irq_complete (s : State) (a : Answer) : (s.complete a).irq = s.ie := by
  rw [State.complete_frame]
  exact Bool.and_true _

/-- The one write that raises `irq` sets IE while DONE is 1 (R210). -/
theorem irq_raised_by_write {s : State} {d : Word} {r : Reg} {answer : Response} (hlow : s.irq = false)
    (hhigh : ((writeReg s d r).respond answer).irq = true) :
    r = .ctrl ∧ s.done = true ∧ d.getLsbD 0 = true ∧ d.getLsbD 1 = false := by
  simp only [State.irq, State.respond_ie, State.respond_done, writeReg_ie, writeReg_done, Bool.and_eq_true] at hlow hhigh
  cases r with
  | ctrl => cases hsrst : d.getLsbD 1 <;> simp_all
  | id | param | status | cmd | idx | opa | opb | result => simp_all

/-- Settles O30, by what each kind of step does to IE and DONE. -/
theorem irqRule : Obligations.IrqRule := by
  intro s t hI h
  refine ⟨by rw [State.irq, Bool.and_eq_true], fun hc => ?_, fun hlow hhigh => ?_, fun hr => ?_⟩
  · rcases step_register_cases hI h with ⟨-, -, -, rfl⟩ | ⟨hn, -⟩ | ⟨hn, -⟩ | ⟨hn, -⟩
    · exact irq_complete _ _
    all_goals exact absurd hc hn
  · rcases step_register_cases hI h with ⟨hc, -, -, rfl⟩ | ⟨-, -, -, _, _, _, _, rfl⟩ | ⟨-, -, rest, hi, rfl⟩ |
      ⟨-, -, r, d, rest, hr, hw, rfl⟩
    · rw [irq_complete] at hhigh
      exact .inl ⟨hc, hhigh⟩
    · exact absurd (hlow.symm.trans hhigh) (by decide)
    · cases hhigh
    · obtain ⟨rfl, hdone, hie, hsrst⟩ := irq_raised_by_write (s := { s with inbox := rest }) hlow hhigh
      exact .inr ⟨hdone, d, rest, hw, hie, hsrst⟩
  · rw [step_of_isReset hI.1 hr h]
    rfl

end Sys2Proof.Proofs
end

/-! # Runs: what comes between issue and completion, and the host's wide writes (R46, R47, R89, R243) -/

section
namespace Sys2Proof.Proofs
open Sys2Proof.Machine

theorem writeReg_inbox (s : State) (d : Word) (r : Reg) : (writeReg s d r).inbox = s.inbox := by
  rcases writeReg_cases s d r with ⟨-, -, h⟩ | ⟨-, -, h⟩ | ⟨-, -, h⟩ | ⟨-, k, -, h⟩ | ⟨-, k, -, h⟩ | ⟨_, _, _, -, h⟩ <;>
    rw [h] <;> rfl

/-- A step consumes the next input (R71). -/
theorem step_inbox {s t : State} (hs : s.Wf) (h : step s = .next t) : t.inbox = s.inbox.tail := by
  rcases step_next_cases h with ⟨-, rfl⟩ | ⟨-, -, rfl⟩ | ⟨a, rest, hi, hserve⟩ | ⟨rest, hi, rfl⟩ | ⟨level, rest, hi, rfl⟩
  · rw [State.complete_frame]
  · rfl
  · rw [hi]
    obtain ⟨r, -, ⟨-, rfl⟩ | ⟨d, -, rfl⟩⟩ := serve_cases hs hi hserve
    · rfl
    · exact writeReg_inbox _ d r
  · rw [hi, State.enginePass_frame]
    rfl
  · rw [hi]
    cases level <;> rfl

/-! From issue to completion. -/

/-- The fields that a command in flight keeps: the phase, CMD, the operands, RESULT and the parameters (R47). -/
def SameCommand (s t : State) : Prop :=
  t.phase = s.phase ∧ t.cmd = s.cmd ∧ t.opa = s.opa ∧ t.opb = s.opb ∧ t.idx = s.idx ∧ t.result = s.result ∧
    t.params = s.params

theorem SameCommand.trans {s t u : State} (h : SameCommand s t) (h' : SameCommand t u) : SameCommand s u := by
  obtain ⟨h₁, h₂, h₃, h₄, h₅, h₆, h₇⟩ := h
  obtain ⟨h₁', h₂', h₃', h₄', h₅', h₆', h₇'⟩ := h'
  exact ⟨h₁'.trans h₁, h₂'.trans h₂, h₃'.trans h₃, h₄'.trans h₄, h₅'.trans h₅, h₆'.trans h₆, h₇'.trans h₇⟩

/-- An input that keeps the command does not reset the block (R230). -/
theorem not_isReset_of_keepsCommand {s : State} {e : Event} {rest : List Event} (hs : s.Wf) (hi : s.inbox = e :: rest)
    (he : e.keepsCommand = true) : ¬ IsReset s := by
  rintro (⟨rest', hi'⟩ | ⟨d, rest', ⟨-, -, hi'⟩, hsrst⟩)
  · cases hi.symm.trans hi'
    cases he
  · cases hi.symm.trans hi'
    obtain ⟨-, -, -, hbase⟩ := (Params.wf_iff s.params).mp hs.1
    have hoff : offsetOf (s.params.base + 0x008) = 0x008 := offsetOf_base_add hbase (by decide)
    simp only [Event.keepsCommand, hoff, hsrst] at he
    exact absurd he (by decide)

theorem not_isCompletion_of_keepsCommand {s : State} {e : Event} {rest : List Event} (hi : s.inbox = e :: rest)
    (he : e.keepsCommand = true) : ¬ IsCompletion s := by
  rintro ⟨-, hi' | ⟨rest', hi'⟩⟩ <;> cases hi.symm.trans hi'
  cases he

/-- A step of a busy block that neither completes nor resets keeps the command in flight (R47). -/
theorem sameCommand_step {s t : State} (hI : s.Inv) (hp : s.phase = .busy) (hc : ¬ IsCompletion s) (hr : ¬ IsReset s)
    (h : step s = .next t) : SameCommand s t := by
  obtain ⟨hopa, hopb, hidx, hcmd, hresult⟩ := registersChangeOnlyBy s t hI h
  obtain ⟨-, hparams⟩ := stepKeepsInvariant s t hI h
  have hnotIdle : s.phase ≠ .idle := fun hidle => nomatch hp.symm.trans hidle
  have hbusy : t.phase = .busy := t.phase.idle_or_busy.resolve_left fun hidle =>
    ((step_idle_iff hI h hp).mp hidle).elim hc hr
  refine ⟨hbusy.trans hp.symm, ?_, ?_, ?_, ?_, ?_, hparams⟩ <;> by_contra hne
  · exact (hcmd hne).elim hr fun hissue => hnotIdle hissue.1
  · exact (hopa hne).elim hr fun hwrite => hnotIdle hwrite.1
  · exact (hopb hne).elim hr fun hwrite => hnotIdle hwrite.1
  · exact (hidx hne).elim hr fun hwrite => hnotIdle hwrite.1
  · exact (hresult hne).elim hr fun hcomplete => hc hcomplete.1

/-- A run over inputs that keep the command keeps it, and leaves the inputs after them (R46, R47). -/
theorem sameCommand_run {s t : State} {evs : List Event} {n : Nat} {rest : List Event} (hI : s.Inv) (hp : s.phase = .busy)
    (hi : s.inbox = evs ++ rest) (hkeep : ∀ e ∈ evs, e.keepsCommand = true)
    (h : Host.Core.run Sys2Proof.core (evs.length + n) s = .next t) :
    ∃ u : State, u.Inv ∧ SameCommand s u ∧ u.inbox = rest ∧ Host.Core.run Sys2Proof.core n u = .next t := by
  induction evs generalizing s with
  | nil => exact ⟨s, hI, ⟨rfl, rfl, rfl, rfl, rfl, rfl, rfl⟩, hi, by rwa [List.length_nil, Nat.zero_add] at h⟩
  | cons e evs ih =>
    rw [List.length_cons, Nat.succ_add] at h
    obtain ⟨v, hstep, hrun⟩ := run_cases h
    obtain ⟨he, hkeep⟩ := List.forall_mem_cons.mp hkeep
    have hsame := sameCommand_step hI hp (not_isCompletion_of_keepsCommand hi he)
      (not_isReset_of_keepsCommand hI.1 hi he) hstep
    have hinbox : v.inbox = evs ++ rest := by
      rw [step_inbox hI.1 hstep, hi]
      rfl
    obtain ⟨u, hu, hsame', hrest⟩ := ih (stepKeepsInvariant s v hI hstep).1 (hsame.1.trans hp) hinbox hkeep hrun
    exact ⟨u, hu, hsame.trans hsame', hrest⟩

/-- Settles O32: what comes before the completion keeps the command, and the completion answers on what it kept. -/
theorem operandsFrozenUntilCompletion : Obligations.OperandsFrozenUntilCompletion := by
  intro s t evs hI hp hi hkeep h
  obtain ⟨u, ⟨hu, -⟩, ⟨hphase, hcmd, hopa, hopb, hidx, hresult, hparams⟩, hinbox, hrun⟩ := sameCommand_run hI hp hi hkeep h
  obtain ⟨v, hstep, hanswer⟩ := completionAppliesExecute u [] hu (hphase.trans hp) hinbox
  obtain rfl : v = t := Host.Outcome.next.inj ((run_next hstep).symm.trans hrun)
  have hexecute : execute u.cmd u.width u.opaValue u.opbValue u.ordinal =
      execute s.cmd s.width s.opaValue s.opbValue s.ordinal := by
    simp only [State.width, State.opaValue, State.opbValue, State.ordinal, hcmd, hopa, hopb, hidx, hparams]
  rw [hexecute] at hanswer
  cases ha : execute s.cmd s.width s.opaValue s.opbValue s.ordinal with
  | ok w =>
    rw [ha] at hanswer
    obtain ⟨hvalue, -, hv⟩ := hanswer
    rw [hv]
    exact ⟨rfl, rfl, hcmd, hopa, hopb, hidx, hparams, rfl, hvalue⟩
  | err c =>
    rw [ha] at hanswer
    rw [show v = _ from hanswer]
    exact ⟨rfl, rfl, hcmd, hopa, hopb, hidx, hparams, rfl, hresult⟩

/-! An engine that the host leaves alone. -/

/-- An idle block takes an event of the engine, or waits, without a change (R44, R234). -/
theorem step_idle_of_engine {s : State} (hp : s.phase = .idle) (he : ∀ e ∈ s.inbox, e.isEngine = true) :
    step s = .next { s with inbox := s.inbox.tail } := by
  rw [step]
  split <;> rename_i hi
  · rw [State.inbox_tail_of_nil hi]
    exact engineComplete_idle hp
  · cases he _ (by rw [hi]; exact List.mem_cons_self)
  · rename_i rest
    rw [hi, enginePass_of_idle (s := { s with inbox := rest }) hp]
    rfl
  · rw [hi]
    exact engineComplete_idle hp
  · cases he _ (by rw [hi]; exact List.mem_cons_self)

theorem run_idle_of_engine {s : State} (hp : s.phase = .idle) (he : ∀ e ∈ s.inbox, e.isEngine = true) (n : Nat) :
    ∃ t, Host.Core.run Sys2Proof.core n s = .next t ∧ t.phase = .idle ∧ t.done = s.done ∧ t.cmd = s.cmd := by
  induction n generalizing s with
  | zero => exact ⟨s, rfl, hp, rfl, rfl⟩
  | succ n ih =>
    rw [run_next (step_idle_of_engine hp he)]
    exact ih (s := { s with inbox := s.inbox.tail }) hp fun e hmem => he e (List.mem_of_mem_tail hmem)

/-- Once the completion has come the block is idle, and stays as it is (R44, R46). -/
theorem run_of_isCompletion {s : State} (hc : IsCompletion s) (he : ∀ e ∈ s.inbox, e.isEngine = true) (n : Nat) :
    ∃ t, Host.Core.run Sys2Proof.core (n + 1) s = .next t ∧ t.phase = .idle ∧ t.done = true ∧ t.cmd = s.cmd := by
  have hstep : step s = .next (State.complete { s with inbox := s.inbox.tail }
      (execute s.cmd s.width s.opaValue s.opbValue s.ordinal)) := by
    obtain ⟨hp, hi | ⟨rest, hi⟩⟩ := hc
    · rw [State.inbox_tail_of_nil hi, step, hi]
      exact engineComplete_busy hp
    · rw [step_complete_busy hp hi, hi]
      rfl
  rw [run_next hstep, State.complete_frame]
  exact run_idle_of_engine rfl (fun e hmem => he e (List.mem_of_mem_tail hmem)) n

/-- Internal steps only delay the completion (R49, R243). -/
theorem run_busy_of_engine {s : State} (hp : s.phase = .busy) (he : ∀ e ∈ s.inbox, e.isEngine = true) :
    ∃ t, Host.Core.run Sys2Proof.core (s.inbox.length + 1) s = .next t ∧ t.phase = .idle ∧ t.done = true ∧
      t.cmd = s.cmd := by
  induction hi : s.inbox generalizing s with
  | nil => exact run_of_isCompletion ⟨hp, .inl hi⟩ he _
  | cons e rest ih =>
    cases e with
    | complete => exact run_of_isCompletion ⟨hp, .inr ⟨rest, hi⟩⟩ he _
    | pass =>
      have hstep : step s = .next (State.enginePass { s with inbox := rest }) := by rw [step, hi]
      rw [hi] at he
      rw [List.length_cons, run_next hstep, State.enginePass_frame]
      exact ih (s := { s with inbox := rest, datapath := (State.enginePass { s with inbox := rest }).datapath }) hp
        (fun e hmem => he e (List.mem_cons_of_mem _ hmem)) rfl
    | access a => cases he _ (by rw [hi]; exact List.mem_cons_self)
    | rstN level => cases he _ (by rw [hi]; exact List.mem_cons_self)

/-- Settles O33, from the run of a busy engine. -/
theorem engineCompletes : Obligations.EngineCompletes :=
  fun _ _ => run_busy_of_engine

/-! The host's wide writes. -/

/-- The words of the operand register. -/
def wideWords (r : WideOperand) (s : State) : List Word :=
  match r with
  | .opa => s.opa
  | .opb => s.opb

/-- The block after the host has written the operand register: the register holds these words, the last write is acknowledged,
and no input is to come. -/
def afterWideWrite (r : WideOperand) (s : State) (l : List Word) (rest : List Event) : State :=
  match r with
  | .opa => { s with inbox := rest, response := some .ack, opa := l }
  | .opb => { s with inbox := rest, response := some .ack, opb := l }

/-- A write of word k of an operand register of an idle block stores that word (R22, R23, R68). -/
theorem step_writeWide_idle {s : State} {r : WideOperand} {w : Word} {rest : List Event} {k : Nat} (hs : s.Wf)
    (hp : s.phase = .idle) (hk : k < s.words) (hw : NextWrite s (r.slot + 4 * k) w rest) :
    step s = .next (afterWideWrite r s ((wideWords r s).set k w) rest) := by
  cases r with
  | opa => exact step_writeOpa_idle hs hp hk hw
  | opb => exact step_writeOpb_idle hs hp hk hw

@[simp] theorem afterWideWrite_params (r : WideOperand) (s : State) (l : List Word) (rest : List Event) :
    (afterWideWrite r s l rest).params = s.params := by cases r <;> rfl
@[simp] theorem afterWideWrite_words (r : WideOperand) (s : State) (l : List Word) (rest : List Event) :
    (afterWideWrite r s l rest).words = s.words := by cases r <;> rfl
@[simp] theorem afterWideWrite_phase (r : WideOperand) (s : State) (l : List Word) (rest : List Event) :
    (afterWideWrite r s l rest).phase = s.phase := by cases r <;> rfl
@[simp] theorem afterWideWrite_rstN (r : WideOperand) (s : State) (l : List Word) (rest : List Event) :
    (afterWideWrite r s l rest).rstN = s.rstN := by cases r <;> rfl
@[simp] theorem afterWideWrite_inbox (r : WideOperand) (s : State) (l : List Word) (rest : List Event) :
    (afterWideWrite r s l rest).inbox = rest := by cases r <;> rfl
@[simp] theorem wideWords_afterWideWrite (r : WideOperand) (s : State) (l : List Word) (rest : List Event) :
    wideWords r (afterWideWrite r s l rest) = l := by cases r <;> rfl
@[simp] theorem afterWideWrite_twice (r : WideOperand) (s : State) (l l' : List Word) (rest rest' : List Event) :
    afterWideWrite r (afterWideWrite r s l rest) l' rest' = afterWideWrite r s l' rest' := by cases r <;> rfl

theorem wf_afterWideWrite {s : State} {r : WideOperand} {l : List Word} {rest : List Event} (hs : s.Wf)
    (hl : l.length = s.words) : (afterWideWrite r s l rest).Wf := by
  obtain ⟨hparams, hopa, hopb, hresult⟩ := hs
  cases r with
  | opa => exact ⟨hparams, hl, hopb, hresult⟩
  | opb => exact ⟨hparams, hopa, hl, hresult⟩

theorem wideWords_length {s : State} (hs : s.Wf) (r : WideOperand) : (wideWords r s).length = s.words := by
  obtain ⟨-, hopa, hopb, -⟩ := hs
  cases r with
  | opa => exact hopa
  | opb => exact hopb

/-- Storing word k leaves the words below k (R64). -/
theorem take_succ_set {l : List Word} {k : Nat} (hk : k < l.length) (w : Word) :
    (l.set k w).take (k + 1) = l.take k ++ [w] := by
  rw [List.take_add_one, List.take_set_of_le le_rfl, List.getElem?_set_self hk]
  rfl

/-- The first write of the expansion stores word k (R89). -/
theorem step_wideWrites {s : State} {r : WideOperand} {k : Nat} {w : Word} {ws : List Word} (hs : s.Wf)
    (hp : s.phase = .idle) (hrst : s.rstN = true) (hk : k < s.words)
    (hi : s.inbox = (wideWrites s.params r.slot k (w :: ws)).map Event.access) :
    step s = .next (afterWideWrite r s ((wideWords r s).set k w)
      ((wideWrites s.params r.slot (k + 1) ws).map Event.access)) := by
  have hoff : r.slot + 4 * k < Config.windowBytes := by
    have hwords := hs.words_le
    cases r <;> simp only [WideOperand.slot, Config.windowBytes] <;> omega
  exact step_writeWide_idle hs hp hk ⟨hrst, hoff, hi⟩

/-- Writing the words from k on, to the last, keeps the words below k (R89). -/
theorem run_wideWrites {s : State} {r : WideOperand} {k : Nat} {w : Word} {ws : List Word} (hs : s.Wf)
    (hp : s.phase = .idle) (hrst : s.rstN = true) (hk : k + (ws.length + 1) = s.words)
    (hi : s.inbox = (wideWrites s.params r.slot k (w :: ws)).map Event.access) :
    Host.Core.run Sys2Proof.core (ws.length + 1) s =
      .next (afterWideWrite r s ((wideWords r s).take k ++ w :: ws) []) := by
  induction ws generalizing s k w with
  | nil =>
    have hlen := wideWords_length hs r
    have hlast : (wideWords r s).set k w = (wideWords r s).take k ++ [w] := by
      rw [← take_succ_set (by omega) w, List.take_of_length_le]
      rw [List.length_set, hlen, ← hk]
      rfl
    rw [run_next (step_wideWrites hs hp hrst (by omega) hi), hlast]
    rfl
  | cons w' ws ih =>
    have hlen := wideWords_length hs r
    rw [List.length_cons] at hk
    have hnext := ih (wf_afterWideWrite (r := r) (rest := (wideWrites s.params r.slot (k + 1) (w' :: ws)).map Event.access)
        hs ((List.length_set (i := k) (a := w)).trans hlen)) (k := k + 1) (w := w') (by simp [hp]) (by simp [hrst])
      (by rw [afterWideWrite_words]; omega) (by simp)
    rw [List.length_cons, run_next (step_wideWrites hs hp hrst (by omega) hi), hnext, wideWords_afterWideWrite,
      afterWideWrite_twice, take_succ_set (by omega), List.append_assoc]
    rfl

/-- Settles O34: the expansion writes all N words. -/
theorem wideWriteExpansion : Obligations.WideWriteExpansion := by
  intro s r v hI hp hrst hv hi
  obtain ⟨hs, -⟩ := hI
  have hfits : valueOf (wordsOf s.words v) = v := by
    apply valueOf_wordsOf
    rw [State.words, ← Params.wf_width hs.1]
    exact of_decide_eq_true hv
  obtain ⟨n, hn⟩ : ∃ n, s.words = n + 1 := by
    have hwidth : s.width = 32 * s.words := Params.wf_width hs.1
    have hpos := width_pos hs
    exact Nat.exists_eq_succ_of_ne_zero (by omega)
  have hwords : wordsOf s.words v = BitVec.ofNat 32 v :: wordsOf n (v >>> 32) := by rw [hn, wordsOf]
  have hrun := run_wideWrites hs hp hrst (k := 0) (ws := wordsOf n (v >>> 32)) (w := BitVec.ofNat 32 v) (r := r)
    (by simp [hn]) (by rw [← hwords]; exact hi)
  rw [wordsOf_length, ← hn, List.take_zero, List.nil_append, ← hwords] at hrun
  refine ⟨_, hrun, ?_⟩
  cases r with
  | opa => exact ⟨hfits, wordsOf_length _ _, rfl⟩
  | opb => exact ⟨hfits, wordsOf_length _ _, rfl⟩

end Sys2Proof.Proofs
end

/-! # The remainder as a residue: corner cases, linearity, and the codec's codewords (R144, R148, R150, R171 to R178) -/

section
namespace Sys2Proof.Proofs
open Sys2Proof.Machine

/-- Settles O46: each pass counts `shift` down by one. -/
theorem loopPassCount : Obligations.LoopPassCount := by
  intro width a gen ha h
  have hlen : len a ≤ width := (len_le_iff _ _).mpr ha
  refine ⟨fun k hk => ?_, ?_, by omega, rem_eq_xorIfMsbSetValue a gen⟩
  · rw [datapathAfter_shift]
    omega
  · rw [datapathAfter_shift]
    omega

/-! Residues of a sum, of a multiple and of a short dividend (R146, R150, R177). -/

theorem CongruentMod.xor {gen a b r r' : Nat} (h : CongruentMod gen a r) (h' : CongruentMod gen b r') :
    CongruentMod gen (a ^^^ b) (r ^^^ r') := by
  obtain ⟨q, rfl⟩ := h
  obtain ⟨q', rfl⟩ := h'
  refine ⟨q ^^^ q', ?_⟩
  rw [clmul_xor]
  ac_rfl

theorem rem_eq_of_congruentMod {gen a r : Nat} (hlen : len r < len gen) (h : CongruentMod gen a r) : rem a gen = r :=
  isRemainder_unique (isRemainder_iff.mpr ⟨hlen, h⟩) (isRemainder_rem ((len_pos_iff gen).mp (by omega)) a)

theorem congruentMod_rem {gen : Nat} (hgen : gen ≠ 0) (a : Nat) : CongruentMod gen a (rem a gen) :=
  (isRemainder_rem hgen a).2

theorem rem_xor {gen : Nat} (hgen : gen ≠ 0) (a b : Nat) : rem (a ^^^ b) gen = rem a gen ^^^ rem b gen := by
  have hpos := (len_pos_iff gen).mpr hgen
  have hlen : len (rem a gen ^^^ rem b gen) ≤ len gen - 1 :=
    (len_le_iff _ _).mpr (Nat.xor_lt_two_pow (rem_lt hgen a) (rem_lt hgen b))
  exact rem_eq_of_congruentMod (by omega) ((congruentMod_rem hgen a).xor (congruentMod_rem hgen b))

/-- Settles O48: the sum of the remainders is short enough to be one. -/
theorem remainderLinear : Obligations.RemainderLinear :=
  fun a b _ h => rem_xor (ne_zero_of_two_le_len h) a b

/-- The remainder is 0 exactly for the multiples of the generator (R174). -/
theorem rem_eq_zero_iff {gen : Nat} (hgen : gen ≠ 0) (a : Nat) : rem a gen = 0 ↔ Divides gen a := by
  constructor
  · intro h
    obtain ⟨q, hq⟩ := congruentMod_rem hgen a
    rw [h, Nat.xor_zero] at hq
    exact ⟨q, hq.symm⟩
  · rintro ⟨q, rfl⟩
    exact rem_eq_of_congruentMod ((len_pos_iff gen).mpr hgen) ⟨q, (Nat.xor_zero _).symm⟩

/-- A left shift is a multiplication by a power of x. -/
theorem clmul_one_shiftLeft (g k : Nat) : clmul (1 <<< k) g = g <<< k := by
  induction k with
  | zero => exact clmul_one g
  | succ k ih => rw [Nat.shiftLeft_add, clmul_shiftLeft_one, ih, ← Nat.shiftLeft_add]

theorem divides_shiftLeft (g k : Nat) : Divides g (g <<< k) := ⟨1 <<< k, clmul_one_shiftLeft g k⟩

/-- A dividend of the generator's length needs one subtraction and no pass (R150). -/
theorem rem_of_len_eq {a gen : Nat} (hgen : gen ≠ 0) (h : len a = len gen) : rem a gen = a ^^^ gen := by
  have ha : a ≠ 0 := (len_pos_iff a).mp (h ▸ (len_pos_iff gen).mpr hgen)
  have htop := testBit_len_sub_one ha
  rw [h] at htop
  rw [rem_eq_xorIfMsbSetValue, h, Nat.sub_self, datapathAfter_zero_reg, h, Nat.sub_self, Nat.shiftRight_zero,
    xorIfMsbSetValue_of_testBit htop]

/-- Settles O47: the lengths decide, and a shifted generator is a multiple of it. -/
theorem remainderCornerCases : Obligations.RemainderCornerCases := by
  intro a gen k h
  have hgen := ne_zero_of_two_le_len h
  refine ⟨rem_of_len_lt ((len_pos_iff gen).mpr hgen), rem_of_len_lt, rem_of_len_eq hgen, ?_,
    (rem_eq_zero_iff hgen _).mpr (divides_shiftLeft gen k), by decide⟩
  rw [rem_of_len_eq hgen rfl, Nat.xor_self]

/-! ENCODE and DECODE. -/

theorem encodeValue_eq_xor {gen : Nat} (h : 2 ≤ len gen) (a : Nat) :
    encodeValue a gen = padValue a gen ^^^ rem (padValue a gen) gen := by
  obtain ⟨-, -, -, -, hxor⟩ := encodeNeverCarries a gen h
  exact hxor

/-- A codeword is a multiple of the generator (R173). -/
theorem rem_encodeValue {gen : Nat} (h : 2 ≤ len gen) (a : Nat) : rem (encodeValue a gen) gen = 0 := by
  have hgen := ne_zero_of_two_le_len h
  rw [encodeValue_eq_xor h, rem_xor hgen, rem_of_len_lt (len_rem_lt hgen _), Nat.xor_self]

theorem encodeValue_shiftRight {gen : Nat} (hgen : gen ≠ 0) (a : Nat) : encodeValue a gen >>> (len gen - 1) = a :=
  shiftLeft_add_shiftRight_of_lt (rem_lt hgen _) a

/-- The check bits are the remainder of the padded payload (R171). -/
theorem encodeValue_mod {gen : Nat} (hgen : gen ≠ 0) (a : Nat) :
    encodeValue a gen % 2 ^ (len gen - 1) = rem (padValue a gen) gen := by
  rw [encodeValue, Nat.add_mod, padValue_eq_mul, Nat.mul_mod_left, Nat.zero_add, Nat.mod_mod, ← padValue_eq_mul,
    Nat.mod_eq_of_lt (rem_lt hgen _)]

/-- The codeword of 1 is the generator itself (R171). -/
theorem encodeValue_one {gen : Nat} (h : 2 ≤ len gen) : encodeValue 1 gen = gen := by
  have hgen := ne_zero_of_two_le_len h
  have hlen : len (padValue 1 gen) = len gen := by
    rw [len_padValue one_ne_zero hgen]
    exact Nat.add_sub_cancel_left _ _
  rw [encodeValue_eq_xor h, rem_of_len_eq hgen hlen, Nat.xor_xor_cancel_left]

theorem answerOf_encode_of_fits {width opa opb : Nat} (h : 2 ≤ len opb)
    (hfits : opa = 0 ∨ len opa + len opb - 1 ≤ width) (b : Int) :
    answerOf .encode width opa opb b = .ok (encodeValue opa opb) ∧ encodeValue opa opb < 2 ^ width := by
  have hpass : ¬ padOverflows width opa opb = true := by
    rw [padOverflows_iff]
    omega
  refine ⟨(answerOf_encode h _ _ _).trans (if_neg hpass), ?_⟩
  rwa [padOverflows_iff_encodeValue (ne_zero_of_two_le_len h), not_le] at hpass

/-- Settles O50, by the two checks of ENCODE and the parts of a codeword. -/
theorem encodeAppendsCheckBits : Obligations.EncodeAppendsCheckBits := by
  refine ⟨decode_encode .encode, fun s hs => ⟨_, exec_eq_complete _ _, fun hshort => ?_, fun h hopa hwide => ?_,
    fun h hfits => ?_⟩⟩
  · exact failsWith_complete (answerOf_divider_of_short rfl hshort _ _)
  · have hover := (padOverflows_iff _ _ _).mpr ⟨hopa, hwide⟩
    exact failsWith_complete ((answerOf_encode h _ _ _).trans (if_pos hover))
  · have hgen := ne_zero_of_two_le_len h
    obtain ⟨hanswer, hlt⟩ := answerOf_encode_of_fits h hfits s.ordinal
    refine ⟨_, completesWith_complete hs hanswer hlt, encodeValue_shiftRight hgen _, ?_,
      (rem_eq_zero_iff hgen _).mp (rem_encodeValue h _), fun hzero => ?_, fun hone => ?_⟩
    · rw [encodeValue_mod hgen, ← padValue_eq_mul]
      exact isRemainder_rem hgen _
    · rw [hzero, encodeValue_zero hgen]
    · rw [hone, encodeValue_one h]

theorem decodeValue_of_divides {gen a : Nat} (hgen : gen ≠ 0) (h : Divides gen a) : decodeValue a gen = 1 :=
  if_pos ((rem_eq_zero_iff hgen a).mpr h)

theorem decodeValue_of_not_divides {gen a : Nat} (hgen : gen ≠ 0) (h : ¬ Divides gen a) : decodeValue a gen = 0 :=
  if_neg (mt (rem_eq_zero_iff hgen a).mp h)

theorem divides_zero (gen : Nat) : Divides gen 0 := ⟨0, clmul_zero gen⟩

theorem divides_self (gen : Nat) : Divides gen gen := ⟨1, clmul_one gen⟩

/-- A nonzero multiple is at least as long as the generator (R178). -/
theorem not_divides_of_len_lt {gen a : Nat} (ha : a ≠ 0) (h : len a < len gen) : ¬ Divides gen a := by
  rintro ⟨q, rfl⟩
  rw [eq_zero_of_len_clmul_lt h, clmul_zero] at ha
  exact ha rfl

/-- DECODE completes with 1 or 0 as the generator divides the operand or does not (R174). -/
theorem completesWith_decode {s : State} (hs : s.Wf) (h : 2 ≤ len s.opbValue) {v : Nat}
    (hv : decodeValue s.opaValue s.opbValue = v) :
    CompletesWith s (s.complete (answerOf .decode s.width s.opaValue s.opbValue s.ordinal)) v := by
  subst hv
  exact completesWith_complete hs (answerOf_decode h _ _ _) (decodeValue_lt_two_pow (width_pos hs) _ _)

/-- Settles O51: the special cases are multiples, or shorter than the generator. -/
theorem decodeTestsDivisibility : Obligations.DecodeTestsDivisibility := by
  refine ⟨decode_encode .decode, fun s hs => ⟨_, exec_eq_complete _ _, fun hshort => ?_, fun h hdiv => ?_, fun h hdiv => ?_,
    fun h hspecial => ?_, fun h hpos hlen => ?_⟩⟩
  · exact failsWith_complete (answerOf_divider_of_short rfl hshort _ _)
  · exact completesWith_decode hs h (decodeValue_of_divides (ne_zero_of_two_le_len h) hdiv)
  · exact completesWith_decode hs h (decodeValue_of_not_divides (ne_zero_of_two_le_len h) hdiv)
  · have hdiv : Divides s.opbValue s.opaValue := by
      obtain hzero | hself := hspecial
      · rw [hzero]
        exact divides_zero _
      · rw [hself]
        exact divides_self _
    exact completesWith_decode hs h (decodeValue_of_divides (ne_zero_of_two_le_len h) hdiv)
  · have hdiv := not_divides_of_len_lt ((len_pos_iff _).mp hpos) hlen
    exact completesWith_decode hs h (decodeValue_of_not_divides (ne_zero_of_two_le_len h) hdiv)

/-- The block after ENCODE, its RESULT copied to OPA. -/
def codewordCopied (s : State) : State :=
  { s.completeOk (encodeValue s.opaValue s.opbValue) with opa := wordsOf s.words (encodeValue s.opaValue s.opbValue) }

theorem wf_codewordCopied {s : State} (hs : s.Wf) : (codewordCopied s).Wf := by
  obtain ⟨hparams, -, hopb, -⟩ := hs
  exact ⟨hparams, wordsOf_length _ _, hopb, wordsOf_length _ _⟩

/-- Settles O54: RESULT holds the codeword, a multiple of the generator that is still in OPB. -/
theorem encodeRoundTrip : Obligations.EncodeRoundTrip := by
  intro s hs h hfits
  obtain ⟨hanswer, hlt⟩ := answerOf_encode_of_fits h hfits s.ordinal
  have hcopied := wf_codewordCopied hs
  have hopa : (codewordCopied s).opaValue = encodeValue s.opaValue s.opbValue := State.completeOk_resultValue hs hlt
  have hrem : rem (codewordCopied s).opaValue (codewordCopied s).opbValue = 0 := by
    rw [hopa]
    exact rem_encodeValue h s.opaValue
  have hremainder : answerOf .remainder s.width (codewordCopied s).opaValue s.opbValue s.ordinal = .ok 0 :=
    (answerOf_remainder h _ _ _).trans (congrArg Answer.ok hrem)
  refine ⟨s.completeOk (encodeValue s.opaValue s.opbValue), _, _, ?_, rfl, exec_eq_complete .remainder (codewordCopied s),
    completesWith_complete hcopied hremainder (Nat.two_pow_pos _), exec_eq_complete .decode (codewordCopied s),
    completesWith_decode hcopied h (if_pos hrem)⟩
  rw [exec_eq_complete, hanswer, State.complete_ok]

/-! Flipping one bit of a codeword (R177). -/

theorem clmulUpTo_mul_x (q g n : Nat) : clmulUpTo q (g <<< 1) n = clmulUpTo q g n <<< 1 := by
  induction n with
  | zero => rfl
  | succ n ih =>
    rw [clmulUpTo, clmulUpTo, ih]
    split
    · rw [Nat.shiftLeft_xor_distrib, ← Nat.shiftLeft_add, ← Nat.shiftLeft_add, Nat.add_comm]
    · rfl

theorem clmul_mul_x (q g : Nat) : clmul q (g <<< 1) = clmul q g <<< 1 :=
  clmulUpTo_mul_x q g (len q)

/-- The constant term of a product is the product of the constant terms. -/
theorem testBit_clmul_zero (q g : Nat) : (clmul q g).testBit 0 = (q.testBit 0 && g.testBit 0) := by
  have hupTo (n : Nat) : (clmulUpTo q g (n + 1)).testBit 0 = (q.testBit 0 && g.testBit 0) := by
    induction n with
    | zero => cases hq : q.testBit 0 <;> simp [clmulUpTo, hq]
    | succ n ih =>
      rw [clmulUpTo]
      split
      · rw [Nat.testBit_xor, ih]
        simp
      · exact ih
  rw [← clmulUpTo_of_len_le (Nat.le_succ (len q)), hupTo]

/-- A number with an even value is twice another. -/
theorem eq_shiftLeft_one_of_testBit_zero {v : Nat} (h : v.testBit 0 = false) : v = (v / 2) <<< 1 := by
  rw [Nat.testBit_zero, decide_eq_false_iff_not] at h
  rw [Nat.shiftLeft_eq]
  omega

theorem ne_zero_of_testBit {v b : Nat} (h : v.testBit b = true) : v ≠ 0 := by
  rintro rfl
  rw [Nat.zero_testBit] at h
  cases h

/-- Only a power of x divides a power of x: a factor x comes out of the generator or of the quotient, down to the factors of 1. -/
theorem eq_two_pow_of_divides_two_pow {gen i : Nat} (h : Divides gen (2 ^ i)) : ∃ k, gen = 2 ^ k := by
  obtain ⟨q, hq⟩ := h
  induction i generalizing gen q with
  | zero =>
    obtain ⟨hq0, hg0⟩ : q.testBit 0 = true ∧ gen.testBit 0 = true := by
      rw [← Bool.and_eq_true, ← testBit_clmul_zero, hq]
      rfl
    have htop := testBit_clmul_top (ne_zero_of_testBit hq0) (ne_zero_of_testBit hg0)
    rw [hq, Nat.testBit_two_pow, decide_eq_true_eq] at htop
    have hshort : gen < 2 ^ 1 := (len_le_iff gen 1).mp (by omega)
    have hpos := Nat.pos_of_ne_zero (ne_zero_of_testBit hg0)
    exact ⟨0, by omega⟩
  | succ i ih =>
    have hconst := testBit_clmul_zero q gen
    rw [hq, Nat.testBit_two_pow_of_ne (Nat.succ_ne_zero i)] at hconst
    have hhalf {v : Nat} (hv : v <<< 1 = 2 ^ (i + 1)) : v = 2 ^ i := by
      rw [Nat.shiftLeft_eq, pow_succ] at hv
      omega
    cases hg : gen.testBit 0 with
    | false =>
      have heven := eq_shiftLeft_one_of_testBit_zero hg
      rw [heven, clmul_mul_x] at hq
      obtain ⟨k, hk⟩ := ih q (hhalf hq)
      exact ⟨k + 1, by rw [heven, hk, Nat.shiftLeft_eq, ← pow_add]⟩
    | true =>
      rw [hg, Bool.and_true] at hconst
      rw [eq_shiftLeft_one_of_testBit_zero hconst.symm, clmul_shiftLeft_one] at hq
      exact ih _ (hhalf hq)

theorem setBitsBelow_two_pow (k n : Nat) : setBitsBelow (2 ^ k) n = if k < n then 1 else 0 := by
  induction n with
  | zero => rfl
  | succ n ih =>
    simp only [setBitsBelow, ih, gb_eq_ite, Nat.testBit_two_pow, decide_eq_true_eq]
    split_ifs <;> omega

theorem testBit_eq_false_of_setBitsBelow {v n : Nat} (h : setBitsBelow v n = 0) {j : Nat} (hj : j < n) :
    v.testBit j = false := by
  induction n with
  | zero => omega
  | succ n ih =>
    rw [setBitsBelow, Nat.add_eq_zero_iff, gb_eq_zero_iff] at h
    obtain ⟨hn, hbelow⟩ := h
    obtain hlt | rfl := Nat.lt_succ_iff_lt_or_eq.mp hj
    · exact ih hbelow hlt
    · exact hn

/-- A number with one set bit is that power of two. -/
theorem eq_two_pow_of_setBitsBelow {v : Nat} (hv : v ≠ 0) (h : setBitsBelow v (len v) = 1) : v = 2 ^ (len v - 1) := by
  have htop := testBit_len_sub_one hv
  have hlen : len v = len v - 1 + 1 := by
    have := (len_pos_iff v).mpr hv
    omega
  have hbelow : setBitsBelow v (len v - 1) = 0 := by
    rw [hlen, setBitsBelow, (gb_eq_one_iff _ _).mpr htop] at h
    omega
  refine Nat.eq_of_testBit_eq fun j => ?_
  rw [Nat.testBit_two_pow]
  obtain hj | rfl | hj := Nat.lt_trichotomy j (len v - 1)
  · simp [testBit_eq_false_of_setBitsBelow hbelow hj, hj.ne']
  · simp [htop]
  · simp [testBit_of_len_le (show len v ≤ j by omega), hj.ne]

/-- Settles O55: the flip adds the remainder of `x^i`, which is 0 exactly for the generators that are powers of x up to it. -/
theorem singleBitFlips : Obligations.SingleBitFlips := by
  intro c gen i h hc
  have hgen := ne_zero_of_two_le_len h
  have hflip : rem (c ^^^ 2 ^ i) gen = rem (2 ^ i) gen := by rw [rem_xor hgen, hc, Nat.zero_xor]
  have hdecode : decodeValue (c ^^^ 2 ^ i) gen = decodeValue (2 ^ i) gen := by rw [decodeValue, hflip, decodeValue]
  rw [hdecode]
  refine ⟨hflip, ⟨fun hzero hdiv => ?_, decodeValue_of_not_divides hgen⟩, fun hbits => ?_, fun hbit hi => ?_⟩
  · exact nomatch hzero.symm.trans (decodeValue_of_divides hgen hdiv)
  · refine decodeValue_of_not_divides hgen fun hdiv => ?_
    obtain ⟨k, rfl⟩ := eq_two_pow_of_divides_two_pow hdiv
    rw [setBitsBelow_two_pow] at hbits
    split at hbits <;> omega
  · have hpow := eq_two_pow_of_setBitsBelow hgen hbit
    have hshift : gen <<< (i - (len gen - 1)) = 2 ^ i := by
      rw [Nat.shiftLeft_eq]
      nth_rw 1 [hpow]
      rw [← pow_add, Nat.add_sub_cancel' hi]
    rw [← hshift]
    exact decodeValue_of_divides hgen (divides_shiftLeft _ _)

end Sys2Proof.Proofs
end
